-- ==== Sys2Proof/Word.lean ====
section
/-! DEFINITION. The words of the block: the bit vectors its registers, table and commands are made of, and the
names of its fixed index ranges (R4, R12, R14). All values are unsigned (R12). -/

namespace Sys2Proof

/-- One 16-bit word of the precomputed table, one quadrant of one time-slice (R4, R63). -/
abbrev Word := BitVec 16

/-- One 24-bit framebuffer register: red 23:16, green 15:8, blue 7:0 (R20). -/
abbrev Pixel := BitVec 24

/-- One 8-bit channel intensity (R20). -/
abbrev Level := BitVec 8

/-- One 32-bit host command word (R91). -/
abbrev Cmd := BitVec 32

/-- The event request vector EV[3:0] (R93). -/
abbrev EvLines := BitVec 4

/-- The index of one of the two buffer slots (R14, R21, R24). -/
abbrev Slot := BitVec 1

/-- A scan group, 0 to 2 (R14). -/
abbrev Group := Fin 3

/-- A quadrant of a group, 0 to 3 (R14). -/
abbrev Quadrant := Fin 4

/-- A pixel position within a quadrant, 0 to 4 (R14). -/
abbrev Position := Fin 5

/-- A channel of a pixel (R4, R20). -/
inductive Channel where
  | red
  | green
  | blue
deriving DecidableEq, Repr, Inhabited

/-- What the block is asked to do from outside, as bits: a host command word in the H format, or the lines of the
event request vector in the E format (R90). -/
inductive Code where
  | host (w : Cmd)
  | event (lines : EvLines)
deriving DecidableEq, Repr

end Sys2Proof
end

