-- ==== Sys2Proof/Syntax.lean ====
section
/-! DEFINITION. The ten operations of the block (R106), one constructor for each row of the opcode table, and
how R102 and R103 write them: the assembler's lines and the pseudo-operations. -/

namespace Sys2Proof

/-- The operations: six host commands (R92) and four events (R93). -/
inductive Instr where
  /-- NOP (R201). -/
  | nop
  /-- FBWR: write one channel of one framebuffer register (R140). -/
  | fbwr (idx : BitVec 6) (ch : Channel) (val : Level)
  /-- COMPILE: compile the framebuffer, with the rotation remap when `rot` is set (R141). -/
  | compile (rot : Bool)
  /-- SWAPREQ: publish the compiled slot and wait for the swap (R190). -/
  | swapreq
  /-- SCHREG: register a periodic callback (R120). -/
  | schreg (cb : BitVec 4) (period : BitVec 24)
  /-- TICKRD: read the tick counter (R124). -/
  | tickrd
  /-- SCHED_TICK: one firing of the scheduler's timer (R121). -/
  | schedTick
  /-- SCAN_TICK: one firing of the scan timer (R160). -/
  | scanTick
  /-- XFER_DONE: the transfer-completion handler (R166). -/
  | xferDone
  /-- CB_RET: the invoked callback has returned (R123). -/
  | cbRet
deriving DecidableEq, Repr

/-- The letter of a channel in the assembler's syntax (R102). -/
def Channel.letter : Channel → String
  | .red => "R"
  | .green => "G"
  | .blue => "B"

/-- The line that writes an operation in the assembler's syntax (R102). -/
def Instr.line : Instr → String
  | .nop => "NOP"
  | .fbwr idx ch val => "FBWR " ++ toString idx.toNat ++ ", " ++ ch.letter ++ ", " ++ toString val.toNat
  | .compile rot => if rot then "COMPILE 1" else "COMPILE 0"
  | .swapreq => "SWAPREQ"
  | .schreg cb period => "SCHREG " ++ toString cb.toNat ++ ", " ++ toString period.toNat
  | .tickrd => "TICKRD"
  | .schedTick => "!SCHED_TICK"
  | .scanTick => "!SCAN_TICK"
  | .xferDone => "!XFER_DONE"
  | .cbRet => "!CB_RET"

/-- `PIXEL i, r, g, b` (R103). -/
def pixelOps (i : BitVec 6) (r g b : Level) : List Instr := [.fbwr i .red r, .fbwr i .green g, .fbwr i .blue b]

/-- `CLEARFB` (R103). -/
def clearFbOps : List Instr := (List.range 60).flatMap fun i => pixelOps (BitVec.ofNat 6 i) 0 0 0

/-- `FRAME rot` (R103). -/
def frameOps (rot : Bool) : List Instr := [.compile rot, .swapreq]

end Sys2Proof
end

