-- ==== Sys2Proof/WellFormed.lean ====
section
/-! DEFINITION. Which operations have legal operands: FBWR's index is at most 59 and SCHREG's period is not 0 (R92,
R100). The channel code 3 of FBWR has no `Channel`, so no term holds it. -/

namespace Sys2Proof

/-- The operand conditions of R92 beside match and mask. -/
def Instr.wellFormed : Instr → Bool
  | .nop => true
  | .fbwr idx _ _ => idx ≤ 59#6
  | .compile _ => true
  | .swapreq => true
  | .schreg _ period => period ≠ 0#24
  | .tickrd => true
  | .schedTick => true
  | .scanTick => true
  | .xferDone => true
  | .cbRet => true

end Sys2Proof
end

