-- ==== Sys2Proof/Decode.lean ====
section
/-! DEFINITION. Decoding and encoding of the H format (R91, R92, R100) and of the E format (R93). Every one of the 2^32
command words is an operation or is refused by name (R100). -/

namespace Sys2Proof

/-- Why a code is no operation (R100; `noLine` is the E format's empty vector). -/
inductive DecodeError where
  /-- opc is 0x6 to 0xF. -/
  | badOpcode
  /-- A bit that R92 requires to be 0 is 1. -/
  | mustBeZero
  /-- FBWR with a pixel index of 60 to 63. -/
  | badIndex
  /-- FBWR with channel code 3. -/
  | badChannel
  /-- SCHREG with period 0. -/
  | zeroPeriod
  /-- No event line is raised, so there is no event. -/
  | noLine
deriving DecidableEq, Repr

/-- opc = cmd[31:28] (R91). -/
def opcOf (w : Cmd) : BitVec 4 := w.extractLsb' 28 4

/-- arg = cmd[27:0] (R91). -/
def argOf (w : Cmd) : BitVec 28 := w.extractLsb' 0 28

/-- The channel code of FBWR: 0 red, 1 green, 2 blue (R92). -/
def Channel.code : Channel → BitVec 2
  | .red => 0
  | .green => 1
  | .blue => 2

/-- The channel a code names; 3 names none (R100). -/
def channelOf (b : BitVec 2) : Option Channel :=
  if b = 0#2 then some .red else if b = 1#2 then some .green else if b = 2#2 then some .blue else none

/-- FBWR: idx = arg[27:22], ch = arg[21:20], arg[19:8] = 0, val = arg[7:0] (R92). -/
def decodeFbwr (w : Cmd) : Except DecodeError Instr :=
  if w.extractLsb' 8 12 ≠ 0#12 then .error .mustBeZero
  else if ¬ w.extractLsb' 22 6 ≤ 59#6 then .error .badIndex
  else
    match channelOf (w.extractLsb' 20 2) with
    | none => .error .badChannel
    | some c => .ok (.fbwr (w.extractLsb' 22 6) c (w.extractLsb' 0 8))

/-- SCHREG: cb = arg[27:24], period = arg[23:0], not 0 (R92). -/
def decodeSchreg (w : Cmd) : Except DecodeError Instr :=
  if w.extractLsb' 0 24 = 0#24 then .error .zeroPeriod
  else .ok (.schreg (w.extractLsb' 24 4) (w.extractLsb' 0 24))

/-- A command without operands: all of arg is 0 (R92). -/
def decodePlain (w : Cmd) (i : Instr) : Except DecodeError Instr :=
  if argOf w = 0#28 then .ok i else .error .mustBeZero

/-- The host command a word stands for (R92), or why it is illegal (R100). -/
def decodeHost (w : Cmd) : Except DecodeError Instr :=
  if opcOf w = 0x0#4 then decodePlain w .nop
  else if opcOf w = 0x1#4 then decodeFbwr w
  else if opcOf w = 0x2#4 then
    (if w.extractLsb' 1 27 = 0#27 then .ok (.compile (w.getLsbD 0)) else .error .mustBeZero)
  else if opcOf w = 0x3#4 then decodePlain w .swapreq
  else if opcOf w = 0x4#4 then decodeSchreg w
  else if opcOf w = 0x5#4 then decodePlain w .tickrd
  else .error .badOpcode

/-- The event that is served next of those whose lines are raised, in the order of R219: XFER_DONE, SCAN_TICK, CB_RET,
SCHED_TICK. -/
def decodeEvent (lines : EvLines) : Except DecodeError Instr :=
  if lines.getLsbD 2 then .ok .xferDone
  else if lines.getLsbD 1 then .ok .scanTick
  else if lines.getLsbD 3 then .ok .cbRet
  else if lines.getLsbD 0 then .ok .schedTick
  else .error .noLine

/-- Decoding of both formats (R90). -/
def decode : Code → Except DecodeError Instr
  | .host w => decodeHost w
  | .event lines => decodeEvent lines

/-- The H format word with the given opc and arg (R91). -/
def hostWord (opc : BitVec 4) (arg : BitVec 28) : Cmd := opc ++ arg

/-- The code of an operation (R92, R93). -/
def encode : Instr → Code
  | .nop => .host (hostWord 0x0 0)
  | .fbwr idx ch val => .host (hostWord 0x1 (idx ++ ch.code ++ 0#12 ++ val))
  | .compile rot => .host (hostWord 0x2 (0#27 ++ BitVec.ofBool rot))
  | .swapreq => .host (hostWord 0x3 0)
  | .schreg cb period => .host (hostWord 0x4 (cb ++ period))
  | .tickrd => .host (hostWord 0x5 0)
  | .schedTick => .event 0b0001
  | .scanTick => .event 0b0010
  | .xferDone => .event 0b0100
  | .cbRet => .event 0b1000

/-- One row of R92: the match and mask of a host command. -/
structure HostRow where
  /-- the bits that are fixed -/
  mask : Cmd
  /-- their values -/
  bits : Cmd
deriving DecidableEq, Repr

/-- The word has the row's fixed bits. -/
def HostRow.accepts (r : HostRow) (w : Cmd) : Bool := w &&& r.mask = r.bits

/-- R92's match and mask for the host command of an operation; an event has none. -/
def hostRow : Instr → Option HostRow
  | .nop => some ⟨0xFFFFFFFF, 0x00000000⟩
  | .fbwr _ _ _ => some ⟨0xF00FFF00, 0x10000000⟩
  | .compile _ => some ⟨0xFFFFFFFE, 0x20000000⟩
  | .swapreq => some ⟨0xFFFFFFFF, 0x30000000⟩
  | .schreg _ _ => some ⟨0xF0000000, 0x40000000⟩
  | .tickrd => some ⟨0xFFFFFFFF, 0x50000000⟩
  | .schedTick => none
  | .scanTick => none
  | .xferDone => none
  | .cbRet => none

/-- The line of the E format on which an event is raised, as a vector with that line alone (R93). A host command has
none. -/
def lineOf : Instr → EvLines
  | .schedTick => 0b0001
  | .scanTick => 0b0010
  | .xferDone => 0b0100
  | .cbRet => 0b1000
  | .nop => 0
  | .fbwr _ _ _ => 0
  | .compile _ => 0
  | .swapreq => 0
  | .schreg _ _ => 0
  | .tickrd => 0

/-- The code whose bits a number gives: up to 8 bits the E format's vector, which has four lines, and above that the
H format's word. -/
def codeOfBits (nbits w : Nat) : Option Code :=
  if nbits ≤ 8 then (if w < 16 then some (.event (BitVec.ofNat 4 w)) else none)
  else (if w < 2 ^ 32 then some (.host (BitVec.ofNat 32 w)) else none)

/-- What the decoder reads from an operation whose bits are `w`, as the opcode table numbers them. -/
def decodeTableWord (nbits w : Nat) : Option Instr :=
  match codeOfBits nbits w with
  | none => none
  | some c => (decode c).toOption

end Sys2Proof
end

