-- ==== Sys2Proof/Config.lean ====
section
/-! DEFINITION. What is fixed for one built block and never written (R35): the parameters of R5 to R10, with the
check that refuses an illegal configuration before reset (R215); and the FREE VALUES, constants without a body, for
what the spec leaves open. -/

namespace Sys2Proof

/-- The parameters of one built block (R5 to R10). S is held as its base-2 logarithm, so every value of the field is
one of the nine step counts R5 admits. -/
structure Config where
  /-- log2 S, so that S is 1, 2, 4, ..., 256 (R5). -/
  logS : Fin 9
  /-- D, the dead-time step count (R6). -/
  d : Nat
  /-- WIRE_MAP: entry 3p + k is the bit index of position p and channel k, red 0, green 1, blue 2 (R8). -/
  wire : Vector (Fin 16) 15
  /-- ROT_PERM (R9). -/
  rot : Vector (Fin 60) 60
  /-- N_CB, the capacity of the callback list (R10). -/
  nCb : Nat
  /-- REFRESH, read by no rule (R7). -/
  refresh : Nat
  /-- SCHED_HZ, read by no rule (R7). -/
  schedHz : Nat
  /-- SCAN_HZ, read by no rule (R7). -/
  scanHz : Nat
deriving DecidableEq, Repr

/-- The conditions of R215 that the types do not already force: D and N_CB at least 1, WIRE_MAP injective, ROT_PERM
a permutation. -/
abbrev Config.Legal (c : Config) : Prop :=
  1 ≤ c.d ∧ 1 ≤ c.nCb ∧ c.wire.toList.Nodup ∧ c.rot.toList.Nodup

/-- The base-2 logarithm of an admitted S, and nothing for any other number (R5). -/
def Config.logOf : Nat → Option (Fin 9)
  | 1 => some 0
  | 2 => some 1
  | 4 => some 2
  | 8 => some 3
  | 16 => some 4
  | 32 => some 5
  | 64 => some 6
  | 128 => some 7
  | 256 => some 8
  | _ => none

/-- Building a block: an illegal configuration is refused here, before reset, never at run time (R215, U8). -/
def Config.build (s d nCb : Nat) (wire : Vector (Fin 16) 15) (rot : Vector (Fin 60) 60)
    (refresh schedHz scanHz : Nat) : Option Config :=
  match Config.logOf s with
  | none => none
  | some logS =>
    let c : Config := ⟨logS, d, wire, rot, nCb, refresh, schedHz, scanHz⟩
    if c.Legal then some c else none

/-- FREE VALUE (log entry 2): a permutation of the sixteen bit indices, of which WIRE_MAP is the first fifteen values
and the unused bit the last. Every injective map of R8 is one of these. -/
opaque Config.boardWire : Equiv.Perm (Fin 16)

/-- FREE VALUE (log entry 2): ROT_PERM of R9. -/
opaque Config.boardRot : Equiv.Perm (Fin 60)

/-- FREE VALUE (log entry 2): N_CB less 1, for R10 asks N_CB to be at least 1. -/
opaque Config.boardSpareCallbacks : Nat

/-- FREE VALUE (log entry 2): REFRESH, to which R7 gives no value. -/
opaque Config.boardRefresh : Nat

/-- FREE VALUE (log entry 2): SCAN_HZ, an open parameter (R10, D30). -/
opaque Config.boardScanHz : Nat

/-- The configuration of the block of `State.reset`: S = 64 and D = 1, the defaults of R5 and R6, 1 kHz, the
reference design's scheduler rate of R7, and the open parameters left open. -/
def Config.board : Config where
  logS := 6
  d := 1
  wire := Vector.ofFn fun k => Config.boardWire (k.castLE (by decide))
  rot := Vector.ofFn fun i => Config.boardRot i
  nCb := Config.boardSpareCallbacks + 1
  refresh := Config.boardRefresh
  schedHz := 1000
  scanHz := Config.boardScanHz

/-- What an agent outside the block's handlers does in its turn (R11). The block's own handlers run in the steps that
follow a `raise`, until every line presented has been served (R219). -/
inductive Turn where
  /-- SchedTimer, ScanTimer and Callback raise EV[0], EV[1] and EV[3] at one instant (R93, R219). EV[2] is no request but
  the level of xfer_done; where its handler has been late, bit 2 says that the delay ends in this same instant. -/
  | raise (lines : EvLines)
  /-- The next run of the completion handler is late: it does not come until its delay ends (R218, log entry 8). This turn
  may come at any time, so before or after either of the Shifter's signals (R165). -/
  | defer
  /-- The Host holds one more command word at the port, behind those it holds already (R91, R200). -/
  | present (word : Cmd)
  /-- The Host's step: the acceptance of a command, the release of R191, or the end of the hold of R120. -/
  | host
  /-- The scheduler's walk step (R122). -/
  | walk
  /-- The Shifter sends the next bits, `bits` of them or as many as are left (R164). -/
  | shift (bits : Nat)
  /-- The Shifter has handed over the fourth word and sets xfer_done (R165). -/
  | handOver
  /-- The last bit has left the interface and the Shifter clears shift_busy (R165). -/
  | drain
deriving DecidableEq, Repr, Inhabited

/-- FREE VALUE (log entry 5): what the agents do once the agenda held in the state is used up. -/
opaque Config.environment : Nat → Turn

/-- FREE VALUE (log entry 10): the shift stage SR while a transfer is being shifted, after its first bit and before its
last, one fresh value at each use (U15). -/
opaque Config.shiftStage : Nat → Vector Word 4

end Sys2Proof
end

