-- ==== Sys2Proof/Machine/State.lean ====
section
/-! DEFINITION. The state of the block: every element of 10_state.md, what stands at its edge (the port, the event lines,
the outputs emitted), the agents' turns to come, and the configuration; the reset state of R37; and the reasons a step
can stop. -/

namespace Sys2Proof.Machine

/-- A Scheduler callback record (R30). -/
structure CallbackRecord where
  /-- the callback reference, an opaque tag -/
  cb : BitVec 4
  /-- the period in accepted SCHED_TICKs -/
  period : BitVec 24
  /-- the absolute tick of the next firing -/
  nextFire : BitVec 64
deriving DecidableEq, Repr

/-- host_state (R25). WaitSched holds the operands of the SCHREG that waits (R120). -/
inductive HostState where
  | ready
  | waitSwap
  | waitSched (cb : BitVec 4) (period : BitVec 24)
deriving DecidableEq, Repr

/-- sched_state (R28). -/
inductive SchedState where
  | idle
  | walk (i : Nat)
  | wait (i : Nat)
deriving DecidableEq, Repr

/-- The response register RESP (R29, R94). -/
structure Resp where
  /-- 0 OK, 1 IllegalCommand, 2 SchedFull; 3 is never produced -/
  status : BitVec 2
  /-- TICK for TICKRD, otherwise 0 -/
  data : BitVec 64
deriving DecidableEq, Repr

/-- What a step emits at the block's outputs (R13, R104). -/
inductive Output where
  /-- One bit on SDATA, with its SCLK pulse (R105, R164). -/
  | sdata (bit : Bool)
  /-- One LATCH pulse, asserted and deasserted (R166). -/
  | latch
  /-- The common-enable lines are driven to this value (R26, R104). -/
  | common (lines : BitVec 3)
  /-- A callback is started (R122). -/
  | cbInvoke (cb : BitVec 4)
  /-- A host command has ended with this response (R94). -/
  | done (resp : Resp)
deriving DecidableEq, Repr

/-- The single requests of the event vector that have been raised and not yet consumed (R93, R218). EV[2] is not one of
them: it is the level of xfer_done. -/
structure Requests where
  /-- EV[0], SCHED_TICK -/
  schedTick : Bool
  /-- EV[1], SCAN_TICK -/
  scanTick : Bool
  /-- EV[3], CB_RET -/
  cbRet : Bool
deriving DecidableEq, Repr

/-- No request. -/
abbrev noRequests : Requests := ⟨false, false, false⟩

/-- TABLE as a memory: pairs of a word address and a word, in rising order of address. TABLE has no smaller unit than
the 16-bit word (R60, R66), so its cells are words. The canonical form is `Memory.wf`. -/
abbrev Memory := List (Nat × Word)

/-- The state of the block. -/
structure State where
  /-- the configuration of this block, written by no step (R35) -/
  cfg : Config
  /-- the framebuffer registers x[0 ..< 60] (R20) -/
  x : Vector Pixel 60
  /-- TABLE, the precomputed word table (R33) -/
  table : Memory
  /-- read_slot, the first component of the scan position (R21) -/
  readSlot : Slot
  /-- group_ctr, the second component (R21) -/
  groupCtr : Group
  /-- step_ctr, the third component (R21) -/
  stepCtr : Nat
  /-- write_slot (R24) -/
  writeSlot : Slot
  /-- host_state (R25) -/
  hostState : HostState
  /-- COMMON[2:0], the common-enable lines (R26) -/
  common : BitVec 3
  /-- xfer_busy (R22) -/
  xferBusy : Bool
  /-- xfer_done (R22), whose level is EV[2] (R93) -/
  xferDone : Bool
  /-- the model's own: the next run of the completion handler is late (R218, log entry 8) -/
  handlerLate : Bool
  /-- shift_busy (R22) -/
  shiftBusy : Bool
  /-- how many of the 64 bits of the transfer in flight have been sent (R164) -/
  bitsSent : Nat
  /-- xfer_buf[0 ..< 4] (R31) -/
  xferBuf : Vector Word 4
  /-- SR[0 ..< 4], the shift stage of the chain (R32) -/
  sr : Vector Word 4
  /-- OUT[0 ..< 4], the output latches of the chain (R32) -/
  out : Vector Word 4
  /-- TICK (R27) -/
  tick : BitVec 64
  /-- sched_state (R28) -/
  schedState : SchedState
  /-- CBLIST, head first (R30) -/
  cblist : List CallbackRecord
  /-- RESP (R29) -/
  resp : Resp
  /-- the requests of EV[0], EV[1] and EV[3] presented at this instant and not yet served (R93, R219) -/
  ev : Requests
  /-- the command words the Host holds at the port, the next one first (R91, R200) -/
  port : List Cmd
  /-- what has been emitted so far, oldest first (R13) -/
  trace : List Output
  /-- the model's own: what the agents do next (log entry 5) -/
  agenda : List Turn
  /-- the model's own: how many free values have been used (log entries 5 and 10) -/
  fresh : Nat
deriving DecidableEq, Repr

/-- Why the machine stops with a fault. -/
inductive Fault where
  /-- Raised by SCAN_TICK (`execScanTick`) where step_ctr is above S + D, a value R21 excludes and no run from reset
  reaches: the block to fetch would name no word of the group (R62). Safe: the machine stops. -/
  | noSuchStep
deriving DecidableEq, Repr

/-- Why the machine refuses an operation. -/
inductive Refusal where
  /-- Raised by an arm of `exec` whose operation has no meaning yet; there is no such arm. Safe: the machine stops. -/
  | notModelled (mnemonic : String)
deriving DecidableEq, Repr

/-- The state after reset of a block built with configuration `c`: the table of R37, and the model's own fields as log
entry 15 says. -/
def State.resetWith (c : Config) : State where
  cfg := c
  x := Vector.replicate 60 0x000000
  table := []
  readSlot := 0
  groupCtr := 0
  stepCtr := 0
  writeSlot := 0
  hostState := .ready
  common := 0b001
  xferBusy := false
  xferDone := false
  handlerLate := false
  shiftBusy := false
  bitsSent := 0
  xferBuf := Vector.replicate 4 0x0000
  sr := Vector.replicate 4 0x0000
  out := Vector.replicate 4 0x0000
  tick := 0
  schedState := .idle
  cblist := []
  resp := ⟨0, 0⟩
  ev := noRequests
  port := []
  trace := []
  agenda := []
  fresh := 0

/-- The state after reset (R37, R240) of the block with the default step counts and the open parameters left open. -/
def State.reset : State := State.resetWith Config.board

end Sys2Proof.Machine
end

