-- ==== Sys2Proof/Machine/Flags.lean ====
section
/-! DEFINITION. The transfer flags (R22), the derived signal swap_pending (R23) and the common-enable lines (R26): the
operations that write them, each with the one agent that may. The block has no arithmetic flags. -/

namespace Sys2Proof.Machine

/-- swap_pending, the derived signal [write_slot != read_slot] (R23). -/
def State.swapPending (s : State) : Bool := s.writeSlot ≠ s.readSlot

/-- The flags at the issue of a transfer (R163): in flight, the interface busy, none of its bits sent. -/
def State.startTransfer (s : State) (words : Vector Word 4) : State :=
  { s with xferBuf := words, xferBusy := true, shiftBusy := true, bitsSent := 0 }

/-- The flags at the end of the completion handler (R166). With xfer_done the request of EV[2] is gone (R93). -/
def State.endTransfer (s : State) : State :=
  { s with xferDone := false, xferBusy := false, handlerLate := false }

/-- The line of one group, as a vector with that bit alone. -/
def groupLine (g : Group) : BitVec 3 := 1#3 <<< g.val

/-- COMMON[g] <- 1 (R162). -/
def State.energize (s : State) (g : Group) : State :=
  { s with
    common := s.common ||| groupLine g
    trace := s.trace ++ [.common (s.common ||| groupLine g)] }

/-- COMMON[g] <- 0 (R166). -/
def State.deEnergize (s : State) (g : Group) : State :=
  { s with
    common := s.common &&& ~~~ groupLine g
    trace := s.trace ++ [.common (s.common &&& ~~~ groupLine g)] }

end Sys2Proof.Machine
end

