-- ==== Sys2Proof/Machine/Operands.lean ====
section
/-! DEFINITION. Operand assembly: the step counts and the threshold (R5, R6, R95), the index functions (R96, R97), the
wire position of a channel (R98), the fields of a framebuffer register (R20), the table address (R62) and the widening
of a period (R99). -/

namespace Sys2Proof

/-- S, the PWM step count (R5). -/
def Config.pwmSteps (c : Config) : Nat := 2 ^ c.logS.val

/-- SHIFT = 8 - log2 S (R5). -/
def Config.shift (c : Config) : Nat := 8 - c.logS.val

/-- NSTEP = S + D, the number of time-slices of a group (R6). -/
def Config.nStep (c : Config) : Nat := c.pwmSteps + c.d

/-- The number of words of TABLE, 24 (S + D) (R61). -/
def Config.tableWords (c : Config) : Nat := 24 * c.nStep

/-- STEP_W, the least number of bits that holds S + D (R6). -/
def Config.stepWidth (c : Config) : Nat := c.nStep.log2 + 1

/-- The document's nominal scan frequency, REFRESH × 3 × (S + D) (R7, R261). -/
def Config.nominalScanHz (c : Config) : Nat := c.refresh * 3 * c.nStep

/-- The scan frequency that gives exactly REFRESH frames a second under these rules (R261). -/
def Config.exactScanHz (c : Config) : Nat := c.refresh * 3 * (c.nStep + 1)

/-- The place k(c) of a channel among the three of a pixel: red 0, green 1, blue 2 (R8). -/
def Channel.place : Channel → Fin 3
  | .red => 0
  | .green => 1
  | .blue => 2

/-- WIRE_MAP(p, c) (R8, R98). -/
def Config.wireMap (c : Config) (p : Position) (ch : Channel) : Fin 16 :=
  c.wire[3 * p.val + ch.place.val]

/-- The channels, in the order red, green, blue (R4). -/
def channels : List Channel := [.red, .green, .blue]

/-- The positions of a quadrant (R4). -/
def positions : List Position := [0, 1, 2, 3, 4]

/-- The quadrants of a group (R4). -/
def quadrants : List Quadrant := [0, 1, 2, 3]

/-- The scan groups (R4). -/
def groups : List Group := [0, 1, 2]

/-- thr(V) = V >> SHIFT (R95). -/
def Config.thr (c : Config) (v : Level) : Nat := (v >>> c.shift).toNat

/-- phys(g, q, p) = 20 g + 5 q + p (R96). -/
def phys (g : Group) (q : Quadrant) (p : Position) : Fin 60 :=
  ⟨20 * g.val + 5 * q.val + p.val, by omega⟩

/-- src(phys, rot) (R97). -/
def Config.src (c : Config) (i : Fin 60) (rot : Bool) : Fin 60 :=
  if rot then c.rot[i.val] else i

/-- One channel of a framebuffer register (R20). -/
def channelOfPixel (v : Pixel) : Channel → Level
  | .red => v.extractLsb' 16 8
  | .green => v.extractLsb' 8 8
  | .blue => v.extractLsb' 0 8

/-- A framebuffer register with one channel replaced (R13, R140). -/
def setChannelOfPixel (v : Pixel) (ch : Channel) (l : Level) : Pixel :=
  match ch with
  | .red => l ++ v.extractLsb' 8 8 ++ v.extractLsb' 0 8
  | .green => v.extractLsb' 16 8 ++ l ++ v.extractLsb' 0 8
  | .blue => v.extractLsb' 16 8 ++ v.extractLsb' 8 8 ++ l

/-- addr(slot, g, s, q) = ((slot × 3 + g) × (S + D) + s) × 4 + q (R62). -/
def Config.addr (c : Config) (slot : Slot) (g : Group) (s : Nat) (q : Quadrant) : Nat :=
  ((slot.toNat * 3 + g.val) * c.nStep + s) * 4 + q.val

/-- The (group, step, quadrant) triples of one slot, in the order of R141's loops. -/
def Config.slotCells (c : Config) : List (Group × Nat × Quadrant) :=
  groups.flatMap fun g => (List.range c.nStep).flatMap fun step => quadrants.map fun q => (g, step, q)

/-- A period widened to the width of a tick (R99). -/
def widenPeriod (period : BitVec 24) : BitVec 64 := period.setWidth 64

/-- The group that follows a group, modulo 3 (R162). -/
def nextGroup (g : Group) : Group := g + 1

end Sys2Proof
end

