-- ==== Sys2Proof/Machine/Ops.lean ====
section
/-! DEFINITION. The named operations that the meanings share: reading and writing TABLE (R13, R62), the framebuffer
registers (R20), the response register (R94), raising an exception of a host command (R210), the acceptance of a host
command (R200) and the outputs (R13). -/

namespace Sys2Proof.Machine

/-- One word of TABLE. A word that is not listed is 0x0000, what R37 gives every word at reset. -/
def Memory.read : Memory → Nat → Word
  | [], _ => 0
  | (b, w) :: m, a => if a = b then w else Memory.read m a

/-- MemWrite of one word (R13), keeping the canonical form: writing 0x0000 takes the entry out. -/
def Memory.write : Memory → Nat → Word → Memory
  | [], a, v => if v = 0 then [] else [(a, v)]
  | (b, w) :: m, a, v =>
    if a < b then (if v = 0 then (b, w) :: m else (a, v) :: (b, w) :: m)
    else if a = b then (if v = 0 then m else (a, v) :: m)
    else (b, w) :: Memory.write m a v

/-- The canonical form: addresses strictly rising and no listed word 0x0000. -/
abbrev Memory.wf (m : Memory) : Prop :=
  m.Pairwise (fun p r => p.1 < r.1) ∧ ∀ p ∈ m, p.2 ≠ 0

/-- MemRead of an aligned block of four words (R13, R67, R68): the quadrants 0, 1, 2, 3 of one time-slice. -/
def Memory.readBlock (m : Memory) (a : Nat) : Vector Word 4 :=
  #v[m.read a, m.read (a + 1), m.read (a + 2), m.read (a + 3)]

/-- The words of one time-slice, as the issue step fetches them (R163). -/
def State.fetchWords (s : State) (slot : Slot) (g : Group) (step : Nat) : Vector Word 4 :=
  s.table.readBlock (s.cfg.addr slot g step 0)

/-- x[i].c <- v (R13, R140). -/
def State.setPixelChannel (s : State) (i : Fin 60) (ch : Channel) (v : Level) : State :=
  { s with x := s.x.set i.val (setChannelOfPixel s.x[i.val] ch v) }

/-- An output event (R13). -/
def State.emit (s : State) (o : Output) : State := { s with trace := s.trace ++ [o] }

/-- The end of a host command: RESP is written, the Host is told, and it is Ready (R94, R200). -/
def State.respond (s : State) (r : Resp) : State :=
  { s with resp := r, hostState := .ready, trace := s.trace ++ [.done r] }

/-- The end of a host command with status OK and data 0 (R94). -/
def State.respondOk (s : State) : State := s.respond ⟨0, 0⟩

/-- The exceptions of host commands (R210). -/
inductive CommandException where
  /-- code 1 (R211) -/
  | illegalCommand
  /-- code 2 (R212) -/
  | schedFull
deriving DecidableEq, Repr

/-- The status code of an exception (R210). -/
def statusOf : CommandException → BitVec 2
  | .illegalCommand => 1
  | .schedFull => 2

/-- Taking an exception, `raise E(info)` (R210): RESP <- {code of E, 0} and nothing else changes; the Host stays, or is
again, Ready. The block saves nothing and goes nowhere (R220), and there is no return instruction (R221): the command
that follows is the return. -/
def State.takeException (s : State) (e : CommandException) : State := s.respond ⟨statusOf e, 0⟩

/-- Acceptance (R200): a host command has its effect only in Ready; in WaitSwap and WaitSched its word waits at the port
and nothing changes. -/
def accept (s : State) (k : State → State) : State :=
  match s.hostState with
  | .ready => k s
  | .waitSwap => s
  | .waitSched _ _ => s

end Sys2Proof.Machine
end

