-- ==== Sys2Proof/Machine/BufferExchange.lean ====
section
/-! DEFINITION. The buffer exchange: SWAPREQ and the Host's release from its wait (43_buffer_exchange.md). -/

namespace Sys2Proof.Machine

/-- SWAPREQ (R190): write_slot flips and the Host waits for the swap; the command ends with the release step. -/
def execSwapreq (s : State) : Host.Outcome State Fault Refusal :=
  .next (accept s fun s => { s with writeSlot := 1 - s.writeSlot, hostState := .waitSwap })

/-- The release step (R191): it ends the wait when the scan driver has made the swap, and till then does nothing. -/
def releaseSwap (s : State) : State :=
  if s.swapPending then s else s.respondOk

end Sys2Proof.Machine
end

