-- ==== Sys2Proof/Machine/Compiler.lean ====
section
/-! DEFINITION. The PWM compiler: FBWR and COMPILE (41_pwm_compiler.md). -/

namespace Sys2Proof.Machine

/-- FBWR (R140). An index of 60 to 63 is IllegalCommand (R100). -/
def execFbwr (idx : BitVec 6) (ch : Channel) (val : Level) (s : State) :
    Host.Outcome State Fault Refusal :=
  .next (accept s fun s =>
    if h : idx.toNat < 60 then (s.setPixelChannel ⟨idx.toNat, h⟩ ch val).respondOk
    else s.takeException .illegalCommand)

/-- Whether channel `ch` of the LED at (g, q, p) is on in time-slice `step`: the strict comparison of R95 on the source
register of R97. -/
def State.channelOn (s : State) (g : Group) (step : Nat) (q : Quadrant) (rot : Bool)
    (p : Position) (ch : Channel) : Bool :=
  step < s.cfg.thr (channelOfPixel s.x[(s.cfg.src (phys g q p) rot).val] ch)

/-- The fifteen (position, channel) pairs of a quadrant (R4). -/
def ledPairs : List (Position × Channel) :=
  positions.flatMap fun p => channels.map fun ch => (p, ch)

/-- word(g, s, q, rot) (R142): 0x0000 for a dead-time step (R143), else the OR of one bit for each channel that is on. -/
def State.tableWord (s : State) (g : Group) (step : Nat) (q : Quadrant) (rot : Bool) : Word :=
  if s.cfg.pwmSteps ≤ step then 0x0000
  else
    ledPairs.foldl (init := 0x0000) fun w pc =>
      w ||| (if s.channelOn g step q rot pc.1 pc.2 then 1#16 <<< (s.cfg.wireMap pc.1 pc.2).val else 0x0000)

/-- The compile target, 1 - write_slot (R141). -/
def State.compileTarget (s : State) : Slot := 1 - s.writeSlot

/-- TABLE after the loops of R141. -/
def State.compiledTable (s : State) (rot : Bool) : Memory :=
  s.cfg.slotCells.foldl (init := s.table) fun m k =>
    m.write (s.cfg.addr s.compileTarget k.1 k.2.1 k.2.2) (s.tableWord k.1 k.2.1 k.2.2 rot)

/-- COMPILE (R141), as one atomic step (R145). -/
def execCompile (rot : Bool) (s : State) : Host.Outcome State Fault Refusal :=
  .next (accept s fun s => { s with table := s.compiledTable rot }.respondOk)

end Sys2Proof.Machine
end

