-- ==== Sys2Proof/Machine/HostPort.lean ====
section
/-! DEFINITION. The host command port: NOP and the illegal command words (44_host_port.md). -/

namespace Sys2Proof.Machine

/-- NOP (R201). -/
def execNop (s : State) : Host.Outcome State Fault Refusal :=
  .next (accept s State.respondOk)

/-- An illegal command word (R202): status IllegalCommand, and nothing else changes. -/
def takeIllegalCommand (s : State) : State :=
  accept s fun s => s.takeException .illegalCommand

end Sys2Proof.Machine
end

