-- ==== Sys2Proof/Machine/ScanDriver.lean ====
section
/-! DEFINITION. The scan driver: SCAN_TICK with its three branches, the Shifter's steps and the completion handler
XFER_DONE (42_scan_driver.md). -/

namespace Sys2Proof.Machine

/-- The wrap branch (R162): the swap where the new group is 0, the counters, and the new group's common line. -/
def wrapGroup (s : State) : State :=
  State.energize
    { s with
      readSlot := if nextGroup s.groupCtr = 0 ∧ s.swapPending then s.writeSlot else s.readSlot
      stepCtr := 0
      groupCtr := nextGroup s.groupCtr }
    (nextGroup s.groupCtr)

/-- The issue branch (R163): the four words at the scan position are copied and their transfer starts. -/
def issueTransfer (s : State) : State :=
  { s.startTransfer (s.fetchWords s.readSlot s.groupCtr s.stepCtr) with stepCtr := s.stepCtr + 1 }

/-- SCAN_TICK (R160): hold (R161), wrap (R162) or issue (R163). Above S + D there is no step to fetch. -/
def execScanTick (s : State) : Host.Outcome State Fault Refusal :=
  if s.xferBusy then .next s
  else if s.stepCtr = s.cfg.nStep then .next (wrapGroup s)
  else if s.stepCtr < s.cfg.nStep then .next (issueTransfer s)
  else .fault .noSuchStep

/-- Bit n of the stream of a transfer: xfer_buf[n div 16][15 - (n mod 16)] (R105). -/
def serialBit (buf : Vector Word 4) (n : Nat) : Bool :=
  (buf.toList.getD (n / 16) 0).getLsbD (15 - n % 16)

/-- The number of bits of a transfer (R105). -/
def transferBits : Nat := 64

/-- The Shifter sends the next bits of xfer_buf (R164), as many as are left at most. SR holds the four words when the
last bit is out; before that, and after the first bit, it is a free value (U15). -/
def shiftBits (n : Nat) (s : State) : State :=
  if s.shiftBusy ∧ s.bitsSent < transferBits ∧ 0 < n then
    let count := min n (transferBits - s.bitsSent)
    let sent := s.bitsSent + count
    { s with
      bitsSent := sent
      sr := if sent = transferBits then s.xferBuf else Config.shiftStage s.fresh
      fresh := if sent = transferBits then s.fresh else s.fresh + 1
      trace := s.trace ++ (List.range' s.bitsSent count).map fun k => .sdata (serialBit s.xferBuf k) }
  else s

/-- The Shifter has handed over the fourth word: xfer_done <- 1 (R165), once for each transfer. -/
def handOverWord (s : State) : State :=
  if s.xferBusy then { s with xferDone := true } else s

/-- The last bit has left the interface: shift_busy <- 0 (R165). -/
def drainInterface (s : State) : State :=
  if s.shiftBusy ∧ s.bitsSent = transferBits then { s with shiftBusy := false } else s

/-- The LATCH pulse (R166): OUT[q] <- SR[q]. -/
def latchOutputs (s : State) : State :=
  { s with out := s.sr }.emit .latch

/-- The completion handler from the end of its await (R166): LATCH, then the common line of the group after its first
dead-time step, then the flags. The step completed is step_ctr - 1. -/
def completeTransfer (s : State) : State :=
  if s.stepCtr - 1 = s.cfg.pwmSteps then ((latchOutputs s).deEnergize s.groupCtr).endTransfer
  else (latchOutputs s).endTransfer

/-- XFER_DONE (R166): enabled when xfer_done = 1, and then it waits until the interface is idle. -/
def execXferDone (s : State) : Host.Outcome State Fault Refusal :=
  .next (if s.xferDone ∧ ¬ s.shiftBusy then completeTransfer s else s)

end Sys2Proof.Machine
end

