-- ==== Sys2Proof/Machine/Scheduler.lean ====
section
/-! DEFINITION. The scheduler: SCHREG, SCHED_TICK, the walk step, CB_RET and TICKRD (40_scheduler.md). -/

namespace Sys2Proof.Machine

/-- The atomic end of SCHREG (R120), from the end of its await: SchedFull on a full list, else the new record becomes
the head. -/
def registerCallback (cb : BitVec 4) (period : BitVec 24) (s : State) : State :=
  if s.cblist.length = s.cfg.nCb then s.takeException .schedFull
  else
    { s with cblist := ⟨cb, period, s.tick + widenPeriod period⟩ :: s.cblist }.respondOk

/-- SCHREG (R120): period 0 is illegal; while the scheduler walks the command is held. -/
def execSchreg (cb : BitVec 4) (period : BitVec 24) (s : State) : Host.Outcome State Fault Refusal :=
  .next (accept s fun s =>
    if period = 0 then s.takeException .illegalCommand
    else
      match s.schedState with
      | .idle => registerCallback cb period s
      | .walk _ => { s with hostState := .waitSched cb period }
      | .wait _ => { s with hostState := .waitSched cb period })

/-- The end of the hold of SCHREG (R120): nothing happens until the scheduler is idle. -/
def resumeSchreg (cb : BitVec 4) (period : BitVec 24) (s : State) : State :=
  match s.schedState with
  | .idle => registerCallback cb period s
  | .walk _ => s
  | .wait _ => s

/-- SCHED_TICK (R121): the increment, and the walk begins; during a walk the event is dropped (R127). -/
def execSchedTick (s : State) : Host.Outcome State Fault Refusal :=
  .next (match s.schedState with
    | .idle => { s with tick := s.tick + 1, schedState := .walk 0 }
    | .walk _ => s
    | .wait _ => s)

/-- The walk step (R122), enabled in Walk(i). -/
def walkStep (s : State) : State :=
  match s.schedState with
  | .idle => s
  | .wait _ => s
  | .walk i =>
    match s.cblist[i]? with
    | none => { s with schedState := .idle }
    | some r =>
      if r.nextFire ≤ s.tick then { s with schedState := .wait i }.emit (.cbInvoke r.cb)
      else { s with schedState := .walk (i + 1) }

/-- A record with its next firing advanced by its period (R123). -/
def CallbackRecord.advance (r : CallbackRecord) : CallbackRecord :=
  { r with nextFire := r.nextFire + widenPeriod r.period }

/-- CB_RET (R123): the record whose callback has returned advances, and the walk goes on; a stray return is ignored. -/
def execCbRet (s : State) : Host.Outcome State Fault Refusal :=
  .next (match s.schedState with
    | .idle => s
    | .walk _ => s
    | .wait i => { s with cblist := s.cblist.modify i CallbackRecord.advance, schedState := .walk (i + 1) })

/-- TICKRD (R124). -/
def execTickrd (s : State) : Host.Outcome State Fault Refusal :=
  .next (accept s fun s => s.respond ⟨0, s.tick⟩)

end Sys2Proof.Machine
end

