-- ==== Sys2Proof/Machine/Dispatch.lean ====
section
/-! DEFINITION. The meaning of every operation, one arm for each. -/

namespace Sys2Proof.Machine

def exec (i : Instr) (s : State) : Host.Outcome State Fault Refusal :=
  match i with
  | .nop => Sys2Proof.Machine.execNop s
  | .fbwr idx ch val => Sys2Proof.Machine.execFbwr idx ch val s
  | .compile rot => Sys2Proof.Machine.execCompile rot s
  | .swapreq => Sys2Proof.Machine.execSwapreq s
  | .schreg cb period => Sys2Proof.Machine.execSchreg cb period s
  | .tickrd => Sys2Proof.Machine.execTickrd s
  | .schedTick => Sys2Proof.Machine.execSchedTick s
  | .scanTick => Sys2Proof.Machine.execScanTick s
  | .xferDone => Sys2Proof.Machine.execXferDone s
  | .cbRet => Sys2Proof.Machine.execCbRet s

end Sys2Proof.Machine
end

