-- ==== Sys2Proof/Machine/Turns.lean ====
section
/-! DEFINITION. What one step does besides running an operation: serving the event lines in the order of R219, the
Host's step at the port (R200, R191, R120), and the turns of the agents outside the handlers (R11). -/

namespace Sys2Proof.Machine

/-- The requests that a vector of lines raises. EV[2] is no request (R93). -/
def Requests.ofLines (lines : EvLines) : Requests := ⟨lines.getLsbD 0, lines.getLsbD 1, lines.getLsbD 3⟩

/-- Requests raised beside those still waiting. A line raised twice before it is served is one request (R218). -/
def Requests.join (a b : Requests) : Requests :=
  ⟨a.schedTick || b.schedTick, a.scanTick || b.scanTick, a.cbRet || b.cbRet⟩

/-- The requests left when the handler of an event has consumed its own (R93). XFER_DONE has none to consume. -/
def Requests.without (r : Requests) : Instr → Requests
  | .schedTick => { r with schedTick := false }
  | .scanTick => { r with scanTick := false }
  | .cbRet => { r with cbRet := false }
  | .xferDone => r
  | .nop => r
  | .fbwr _ _ _ => r
  | .compile _ => r
  | .swapreq => r
  | .schreg _ _ => r
  | .tickrd => r

/-- The event vector with the given requests and level of EV[2]. -/
def Requests.vector (r : Requests) (level : Bool) : EvLines :=
  BitVec.ofBool r.cbRet ++ BitVec.ofBool level ++ BitVec.ofBool r.scanTick ++ BitVec.ofBool r.schedTick

/-- EV[3:0] (R93): the requests, and EV[2] the level of xfer_done, which stays up until the completion handler clears
it. -/
def State.lines (s : State) : EvLines := s.ev.vector s.xferDone

/-- The completion handler can run: XFER_DONE is up, the await of R166 has ended, and the handler is not late (R218). While
it waits the other agents step (R220). -/
def State.completionDue (s : State) : Bool := s.xferDone && !s.shiftBusy && !s.handlerLate

/-- The lines whose handlers can run now. -/
def State.due (s : State) : EvLines := s.ev.vector s.completionDue

/-- The state in which an event's request has been consumed (R93): its handler runs once. -/
def State.consumeLine (s : State) (i : Instr) : State := { s with ev := s.ev.without i }

/-- Lines raised at one instant (R93, R218). Bit 2 ends the delay of a late completion handler. -/
def State.raiseLines (s : State) (lines : EvLines) : State :=
  { s with ev := s.ev.join (.ofLines lines), handlerLate := s.handlerLate && !lines.getLsbD 2 }

/-- The next run of the completion handler is late: of the XFER_DONE that stands, or of the next one. R218 lets it take
however long and R165 lets shift_busy fall before xfer_done is set, so the delay may begin before either. DESIGN CHOICE
(log entry 8): the form of the delay. -/
def State.deferHandler (s : State) : State := { s with handlerLate := true }

/-- The Host's step in Ready: the word at the port is taken (R200) and runs, or is illegal (R202). With no word there,
nothing happens. -/
def runCommand (s : State) : Host.Outcome State Fault Refusal :=
  match s.port with
  | [] => .next s
  | w :: rest =>
    match decode (.host w) with
    | .ok i => exec i { s with port := rest }
    | .error _ => .next (takeIllegalCommand { s with port := rest })

/-- The Host's step (R25): a command in Ready, the release of R191 in WaitSwap, the end of the hold of R120 in
WaitSched. -/
def hostTurn (s : State) : Host.Outcome State Fault Refusal :=
  match s.hostState with
  | .ready => runCommand s
  | .waitSwap => .next (releaseSwap s)
  | .waitSched cb period => .next (resumeSchreg cb period s)

/-- The turn of one agent. An agent whose step is not enabled does nothing in its turn. -/
def takeTurn (t : Turn) (s : State) : Host.Outcome State Fault Refusal :=
  match t with
  | .raise lines => .next (s.raiseLines lines)
  | .defer => .next s.deferHandler
  | .present w => .next { s with port := s.port ++ [w] }
  | .host => hostTurn s
  | .walk => .next (walkStep s)
  | .shift n => .next (shiftBits n s)
  | .handOver => .next (handOverWord s)
  | .drain => .next (drainInterface s)

/-- The turn that comes next: the agenda's first, and the environment's free choice when the agenda is used up. -/
def State.nextTurn (s : State) : Turn :=
  match s.agenda with
  | [] => Config.environment s.fresh
  | t :: _ => t

/-- The state with that turn taken off the agenda, or the free choice used. -/
def State.popTurn (s : State) : State :=
  match s.agenda with
  | [] => { s with fresh := s.fresh + 1 }
  | _ :: rest => { s with agenda := rest }

/-- One step: while handlers can run, the one whose line is first in the order of R219; else the next agent's turn. -/
def runStep (s : State) : Host.Outcome State Fault Refusal :=
  match decode (.event s.due) with
  | .ok i => exec i (s.consumeLine i)
  | .error _ => takeTurn s.nextTurn s.popTurn

/-- The state with one code placed so that the very next step runs it. A command word stands at the port before all
others, the Host is Ready and has the next turn, and no event is served before it. An event vector stands as the lines that
are served: EV[2] in it is xfer_done = 1 with the interface idle and the handler not late, and without EV[2] a standing
XFER_DONE is late. -/
def State.placeCode (s : State) : Code → State
  | .host w =>
    { s with
      ev := noRequests, handlerLate := s.handlerLate || s.xferDone
      agenda := .host :: s.agenda, port := w :: s.port, hostState := .ready }
  | .event lines =>
    { s with
      ev := .ofLines lines
      xferDone := s.xferDone || lines.getLsbD 2
      shiftBusy := s.shiftBusy && !lines.getLsbD 2
      handlerLate := (s.handlerLate || s.xferDone) && !lines.getLsbD 2 }

/-- The state with the operation that a number's bits give placed for the next step; unchanged where they give none. -/
def State.placeBits (s : State) (nbits w : Nat) : State :=
  match codeOfBits nbits w with
  | none => s
  | some c => s.placeCode c

end Sys2Proof.Machine
end

