-- ==== Sys2Proof/Machine/Step.lean ====
section
/-! DEFINITION. The step function, and where a word is placed for the next step to run it. -/

namespace Sys2Proof.Machine

/-- One step of the block and the agents around it (R11). -/
def step (s : State) : Host.Outcome State Fault Refusal := runStep s

/-- `s` with the operation whose bits are `w` placed where `step` takes its next one. -/
def State.withFetchWord (s : State) (nbits w : Nat) : State := s.placeBits nbits w

end Sys2Proof.Machine
end

