-- ==== Sys2Proof/Safety.lean ====
section
/-! DEFINITION. What claims about runs are stated in: the invariant of the reachable states (R38, R171, R172, R193),
which LED is driven (R168), and the groups of steps the spec takes as one: an `XFER` (R103) and a SCHED_TICK with its
whole walk (R125). -/

namespace Sys2Proof

/-- The whole of slot `slot` of TABLE, as word addresses (R64). -/
abbrev Config.inSlot (c : Config) (slot : Slot) (a : Nat) : Prop :=
  slot.toNat * (12 * c.nStep) ≤ a ∧ a < slot.toNat * (12 * c.nStep) + 12 * c.nStep

/-- Bit `b` is the image of no channel under WIRE_MAP (R63). -/
abbrev Config.UnusedBit (c : Config) (b : Fin 16) : Prop := ∀ p ch, c.wireMap p ch ≠ b

end Sys2Proof

namespace Sys2Proof.Machine

/-- The contents of TABLE that R63 and R38 (g) fix: the dead-time words are 0 and the unused bit is 0 in every word. -/
structure TableOk (c : Config) (m : Memory) : Prop where
  /-- the canonical form -/
  wf : m.wf
  /-- no word outside TABLE's addresses is listed (R61) -/
  inside : ∀ p ∈ m, p.1 < c.tableWords
  /-- dead-time words (R63, R143) -/
  deadTime : ∀ slot g step q, c.pwmSteps ≤ step → step < c.nStep → m.read (c.addr slot g step q) = 0
  /-- the unused bit (R38 (g)) -/
  unused : ∀ a b, c.UnusedBit b → (m.read a).getLsbD b.val = false

/-- The common-enable lines that the scan position calls for (R171): the current group's line up to the completion of
its first dead-time step, and none from there to the next wrap. -/
def State.commonDue (s : State) : BitVec 3 :=
  if s.stepCtr ≤ s.cfg.pwmSteps ∨ (s.stepCtr = s.cfg.pwmSteps + 1 ∧ s.xferBusy) then groupLine s.groupCtr
  else 0

/-- The step whose words were latched last, when it is one of the current group: the last one issued, or while that one
is still in flight the one before it (R167). -/
def State.latchedStep (s : State) : Option Nat :=
  match s.stepCtr, s.xferBusy with
  | n + 1, false => some n
  | n + 2, true => some n
  | _, _ => none

/-- What the outputs hold (R167, R172): the words of the step latched last, and before the group's first latch the zeros
of the previous group's last dead-time step. -/
def State.outDue (s : State) : Vector Word 4 :=
  match s.latchedStep with
  | some n => s.fetchWords s.readSlot s.groupCtr n
  | none => Vector.replicate 4 0

/-- The reachable states' invariant. -/
structure State.Inv (s : State) : Prop where
  /-- the configuration was accepted (R215) -/
  legal : s.cfg.Legal
  /-- TABLE (R38 (g), R143) -/
  table : TableOk s.cfg s.table
  /-- step_ctr (R38 (a)) -/
  position : s.stepCtr ≤ s.cfg.nStep
  /-- a transfer in flight is the one of step_ctr - 1 (R163) -/
  inFlight : s.xferBusy = true → 1 ≤ s.stepCtr
  /-- R38 (d) -/
  doneBusy : s.xferDone = true → s.xferBusy = true
  /-- R38 (d) -/
  shiftingBusy : s.shiftBusy = true → s.xferBusy = true
  /-- no more than the bits of one transfer have been sent (R164) -/
  sentBound : s.bitsSent ≤ transferBits
  /-- SR is complete when the interface is idle, and when the last bit is out (R164, R165) -/
  shifted : s.xferBusy = true → s.shiftBusy = false ∨ s.bitsSent = transferBits → s.sr = s.xferBuf
  /-- the words in flight are those of the step in flight (R163) -/
  fetched : s.xferBusy = true → s.xferBuf = s.fetchWords s.readSlot s.groupCtr (s.stepCtr - 1)
  /-- the outputs (R172) -/
  outputs : s.out = s.outDue
  /-- the common lines (R171) -/
  lines : s.common = s.commonDue
  /-- no swap is pending but in WaitSwap (R38 (c), R193) -/
  slots : s.hostState ≠ .waitSwap → s.writeSlot = s.readSlot
  /-- R38 (e) -/
  capacity : s.cblist.length ≤ s.cfg.nCb
  /-- R38 (e) -/
  periods : ∀ r ∈ s.cblist, r.period ≠ 0
  /-- a held SCHREG has a legal period (R120) -/
  heldPeriod : ∀ cb period, s.hostState = .waitSched cb period → period ≠ 0
  /-- the index of a walk is in the list or just past its end (R28) -/
  walkIndex : ∀ i, s.schedState = .walk i → i ≤ s.cblist.length
  /-- the record whose callback runs is in the list (R28) -/
  waitIndex : ∀ i, s.schedState = .wait i → i < s.cblist.length

/-- Channel `ch` of the LED at (g, q, p) is driven (R168). -/
def State.ledDriven (s : State) (g : Group) (q : Quadrant) (p : Position) (ch : Channel) : Bool :=
  (s.out[q.val]).getLsbD (s.cfg.wireMap p ch).val && s.common.getLsbD g.val

/-- At most one common-enable line is up (R26). -/
abbrev AtMostOneLine (v : BitVec 3) : Prop := v = 0b000 ∨ v = 0b001 ∨ v = 0b010 ∨ v = 0b100

/-- One outcome after another, stopping at the first that is not a next state. -/
def andThen (o : Host.Outcome State Fault Refusal) (k : State → Host.Outcome State Fault Refusal) :
    Host.Outcome State Fault Refusal :=
  match o with
  | .next s => k s
  | .fault r => .fault r
  | .refused r => .refused r

/-- A SCAN_TICK whose transfer, when it starts one, completes before the next (R103, `XFER`): SCAN_TICK, the Shifter's
whole run, XFER_DONE. -/
def scanRound (s : State) : Host.Outcome State Fault Refusal :=
  andThen (exec .scanTick s) fun s =>
    exec .xferDone (drainInterface (handOverWord (shiftBits transferBits s)))

/-- `n` of them, one after another. -/
def scanRounds : Nat → State → Host.Outcome State Fault Refusal
  | 0, s => .next s
  | n + 1, s => andThen (scanRound s) (scanRounds n)

/-- The walk to its end, every callback returning at once; `fuel` bounds the number of steps. -/
def finishWalk : Nat → State → Host.Outcome State Fault Refusal
  | 0, s => .next s
  | n + 1, s =>
    match s.schedState with
    | .idle => .next s
    | .walk _ => finishWalk n (walkStep s)
    | .wait _ => andThen (exec .cbRet s) (finishWalk n)

/-- A SCHED_TICK with its whole walk and all returns as one (R125). -/
def schedRound (s : State) : Host.Outcome State Fault Refusal :=
  andThen (exec .schedTick s) (finishWalk (2 * s.cblist.length + 1))

/-- `n` of them, one after another. -/
def schedRounds : Nat → State → Host.Outcome State Fault Refusal
  | 0, s => .next s
  | n + 1, s => andThen (schedRound s) (schedRounds n)

/-- How many of the SCHED_TICKs that make TICK = tick + 1, ..., tick + k are firings of a record: those at next_fire,
next_fire + period, ... (R125). -/
def firings (tick k : Nat) (r : CallbackRecord) : Nat :=
  if tick + k < r.nextFire.toNat then 0 else (tick + k - r.nextFire.toNat) / r.period.toNat + 1

end Sys2Proof.Machine
end

