-- ==== Sys2Proof/Certificates/Slice0/Obligations.lean ====
section
/-! DEFINITION. The statements for the provers: what each operation does and leaves unchanged, what the encodings say, and
the rules about the whole block. Each docstring names the rules of spec/ it formalises. Where a statement gives a next state
whole, the fields `agenda`, `port`, `ev` and `trace` of the block's edge stand in it as log entries 5, 7, 16 and 25 say. -/

open Sys2Proof Sys2Proof.Machine

/-! ## Encodings -/

/-- R92, R93: decoding the encoding of a well-formed operation gives it back, with every operand. -/
def Obligations.EncodeThenDecode : Prop :=
  ∀ i : Instr, i.wellFormed = true → decode (encode i) = .ok i

/-- R92: a command word that decodes is the encoding of what it decodes to, and that is well-formed; so each word has
one meaning. -/
def Obligations.DecodeThenEncode : Prop :=
  ∀ (w : Cmd) (i : Instr), decode (.host w) = .ok i → encode i = .host w ∧ i.wellFormed = true

/-- R100: the words refused are those with opc 0x6 to 0xF, with a bit set that must be 0, FBWR with idx >= 60 or ch = 3,
and SCHREG with period 0, the fields being read as numbers. -/
def Obligations.IllegalWordsAreThoseNamed : Prop :=
  ∀ w : Cmd,
    (∃ e, decode (.host w) = .error e) ↔
      (6 ≤ w.toNat / 2 ^ 28 ∨
        ((w.toNat / 2 ^ 28 = 0 ∨ w.toNat / 2 ^ 28 = 3 ∨ w.toNat / 2 ^ 28 = 5) ∧ w.toNat % 2 ^ 28 ≠ 0) ∨
        (w.toNat / 2 ^ 28 = 1 ∧
          (w.toNat / 2 ^ 8 % 2 ^ 12 ≠ 0 ∨ 60 ≤ w.toNat / 2 ^ 22 % 2 ^ 6 ∨ w.toNat / 2 ^ 20 % 2 ^ 2 = 3)) ∨
        (w.toNat / 2 ^ 28 = 2 ∧ 2 ≤ w.toNat % 2 ^ 28) ∨
        (w.toNat / 2 ^ 28 = 4 ∧ w.toNat % 2 ^ 24 = 0))

/-- R92, match, mask and fields: a word is one of the six operations exactly where it has that row's fixed bits and meets
the row's further conditions, and then each operand is its field of the word; opc 0x6 to 0xF is no operation. -/
def Obligations.AcceptedWordsMatchTheirRow : Prop :=
  ∀ w : Cmd,
    (decode (.host w) = .ok .nop ↔ w &&& 0xFFFFFFFF#32 = 0x00000000#32) ∧
    (∀ (idx : BitVec 6) (ch : Channel) (val : Level),
      decode (.host w) = .ok (.fbwr idx ch val) ↔
        w &&& 0xF00FFF00#32 = 0x10000000#32 ∧ w.extractLsb' 22 6 = idx ∧ idx ≤ 59#6 ∧
          w.extractLsb' 20 2 = (match ch with | .red => 0#2 | .green => 1#2 | .blue => 2#2) ∧ w.extractLsb' 0 8 = val) ∧
    (∀ rot : Bool,
      decode (.host w) = .ok (.compile rot) ↔ w &&& 0xFFFFFFFE#32 = 0x20000000#32 ∧ w.getLsbD 0 = rot) ∧
    (decode (.host w) = .ok .swapreq ↔ w &&& 0xFFFFFFFF#32 = 0x30000000#32) ∧
    (∀ (cb : BitVec 4) (period : BitVec 24),
      decode (.host w) = .ok (.schreg cb period) ↔
        w &&& 0xF0000000#32 = 0x40000000#32 ∧ w.extractLsb' 24 4 = cb ∧ w.extractLsb' 0 24 = period ∧ period ≠ 0#24) ∧
    (decode (.host w) = .ok .tickrd ↔ w &&& 0xFFFFFFFF#32 = 0x50000000#32) ∧
    (6 ≤ w.toNat / 2 ^ 28 → ∃ e, decode (.host w) = .error e)

/-- Words written out from R92 and R93 decode to the operations they stand for (V1). -/
def Obligations.SampleWordsDecode : Prop :=
  decode (.host 0b0001_000111_10_000000000000_11001000) = .ok (.fbwr 7 .blue 200) ∧
  decode (.host 0b0010_000000000000000000000000000_1) = .ok (.compile true) ∧
  decode (.host 0b0011_0000000000000000000000000000) = .ok .swapreq ∧
  decode (.host 0b0100_0101_000000000000001111101000) = .ok (.schreg 5 1000) ∧
  decode (.host 0b0101_0000000000000000000000000000) = .ok .tickrd ∧
  decode (.event 0b0001) = .ok .schedTick ∧
  decode (.event 0b0010) = .ok .scanTick ∧
  decode (.event 0b0100) = .ok .xferDone ∧
  decode (.event 0b1000) = .ok .cbRet

/-! ## A step runs the decoded operation -/

/-- R93, R219, R200: while a handler can run, whatever the Host's state, a step is the operation of the line served first,
run on the state in which that request has been consumed. The order of one instant is R219's, and that nothing falls between
is the model's (log entry 7). -/
def Obligations.StepRunsTheEvent : Prop :=
  ∀ (s : State) (i : Instr), decode (.event s.due) = .ok i → step s = exec i { s with ev := s.ev.without i }

/-- R200: with no line raised and the Host's turn, a step in Ready is the operation of the word at the port, run on
the state in which the word has been taken and the turn is over. The agenda of turns is the model's (log entry 5), and
so is the list of words at the port (log entry 25). -/
def Obligations.StepRunsTheCommand : Prop :=
  ∀ (s : State) (i : Instr) (w : Cmd) (ws : List Cmd) (rest : List Turn),
    s.due = 0 → s.agenda = .host :: rest → s.hostState = .ready → s.port = w :: ws → decode (.host w) = .ok i →
      step s = exec i { s with agenda := rest, port := ws }

/-- A word placed for the next step is what that step runs: a command on the state with no event to serve and the Host
Ready, an event on the state with the other requests left, EV[2] up being a completion whose handler can run
(log entry 6). -/
def Obligations.PlacedWordRunsNext : Prop :=
  (∀ (s : State) (w : Cmd) (i : Instr), decode (.host w) = .ok i →
    step (s.withFetchWord 32 w.toNat) =
      exec i { s with ev := noRequests, handlerLate := s.handlerLate || s.xferDone, hostState := .ready }) ∧
  (∀ (s : State) (lines : EvLines) (i : Instr), decode (.event lines) = .ok i →
    step (s.withFetchWord 8 lines.toNat) =
      exec i { s with
        ev := (Requests.ofLines lines).without i
        xferDone := s.xferDone || lines.getLsbD 2
        shiftBusy := s.shiftBusy && !lines.getLsbD 2
        handlerLate := (s.handlerLate || s.xferDone) && !lines.getLsbD 2 })

/-- R219, V21: of the lines presented together XFER_DONE is served first, then SCAN_TICK, then CB_RET, then SCHED_TICK;
so a SCAN_TICK presented with an XFER_DONE finds no transfer in flight. -/
def Obligations.CompletionServedBeforeTick : Prop :=
  (∀ lines : EvLines,
    (lines.getLsbD 2 = true → decode (.event lines) = .ok .xferDone) ∧
    (lines.getLsbD 2 = false → lines.getLsbD 1 = true → decode (.event lines) = .ok .scanTick) ∧
    (lines.getLsbD 2 = false → lines.getLsbD 1 = false → lines.getLsbD 3 = true →
      decode (.event lines) = .ok .cbRet) ∧
    (lines = 0b0001 → decode (.event lines) = .ok .schedTick) ∧
    (lines = 0b0000 → ∀ i, decode (.event lines) ≠ .ok i)) ∧
  ∀ s : State, s.due = 0b0110 →
    ∃ t, step s = .next t ∧ t.xferBusy = false ∧ t.due = 0b0010 ∧ step t = exec .scanTick { t with ev := noRequests }

/-- R93, R218: EV[2] is the level of xfer_done, and EV[0], EV[1] and EV[3] are the requests. The Shifter raises it by
setting xfer_done, and it stays up until the completion handler clears it. The handler runs with no other raise as soon as
the interface is idle; till then the other agents step (R220). The handler may be late, and then the other agents step too;
the delay may begin in any state, so whichever of the Shifter's two signals comes first (R165), and neither signal ends it
(log entry 8). -/
def Obligations.CompletionLineHeld : Prop :=
  (∀ s : State, s.lines.getLsbD 0 = s.ev.schedTick ∧ s.lines.getLsbD 1 = s.ev.scanTick ∧
    s.lines.getLsbD 2 = s.xferDone ∧ s.lines.getLsbD 3 = s.ev.cbRet) ∧
  (∀ s : State, s.xferBusy = true → (handOverWord s).lines.getLsbD 2 = true) ∧
  (∀ s t : State, step s = .next t → s.lines.getLsbD 2 = true → t.lines.getLsbD 2 = false →
    decode (.event s.due) = .ok .xferDone ∧ s.shiftBusy = false) ∧
  (∀ s : State, s.xferDone = true → s.shiftBusy = false → s.handlerLate = false → step s = exec .xferDone s) ∧
  (∀ s : State, s.shiftBusy = true ∨ s.handlerLate = true → decode (.event s.due) ≠ .ok .xferDone) ∧
  (∀ (s : State) (rest : List Turn), s.due = 0 → s.agenda = .defer :: rest →
    step s = .next { s with agenda := rest, handlerLate := true }) ∧
  (∀ s : State, (handOverWord s).handlerLate = s.handlerLate ∧ (drainInterface s).handlerLate = s.handlerLate)

/-! ## The host port -/

/-- R201, NOP. -/
def Obligations.NopResult : Prop :=
  decode (.host 0x00000000) = .ok .nop ∧
  ∀ s : State, s.hostState = .ready →
    exec .nop s = .next { s with resp := ⟨0, 0⟩, trace := s.trace ++ [.done ⟨0, 0⟩] }

/-- R202: an illegal word accepted in Ready writes RESP <- {IllegalCommand, 0}, and nothing else changes; the Host stays
Ready. (The word leaves the port, the Host's turn is over, and the end of the command is signalled.) -/
def Obligations.IllegalWordResult : Prop :=
  ∀ (s : State) (e : DecodeError) (w : Cmd) (ws : List Cmd) (rest : List Turn),
    s.due = 0 → s.agenda = .host :: rest → s.hostState = .ready → s.port = w :: ws → decode (.host w) = .error e →
      step s = .next { s with agenda := rest, port := ws, resp := ⟨1, 0⟩, trace := s.trace ++ [.done ⟨1, 0⟩] }

/-- R95, R96, R97: thr(V) is V shifted right by 8 - log2 S, at most S - 1 and 0 for S = 1, and a channel is on at a step
exactly where its threshold is above it; phys(g, q, p) is 20 g + 5 q + p, and g, q and p come back from it; src is ROT_PERM
under the rotation flag and phys without it. -/
def Obligations.OperandAssembly : Prop :=
  (∀ (c : Config) (v : Level),
    c.pwmSteps = 2 ^ c.logS.val ∧ c.thr v = v.toNat / 2 ^ (8 - c.logS.val) ∧ c.thr v ≤ c.pwmSteps - 1) ∧
  (∀ (s : State) (g : Group) (step : Nat) (q : Quadrant) (rot : Bool) (p : Position) (ch : Channel),
    s.channelOn g step q rot p ch = true ↔
      s.cfg.thr (channelOfPixel s.x[(s.cfg.src (phys g q p) rot).val] ch) > step) ∧
  (∀ (g : Group) (q : Quadrant) (p : Position),
    (phys g q p).val = 20 * g.val + 5 * q.val + p.val ∧ (phys g q p).val / 20 = g.val ∧
      (phys g q p).val % 20 / 5 = q.val ∧ (phys g q p).val % 5 = p.val) ∧
  (∀ i : Fin 60, ∃ (g : Group) (q : Quadrant) (p : Position), phys g q p = i) ∧
  (∀ (c : Config) (i : Fin 60), c.src i true = c.rot[i.val] ∧ c.src i false = i)

/-- R200: outside Ready a host command changes nothing (that exec changes nothing there is the model's reading, log
entry 9), and no step of any agent takes, loses or reorders a word at the port; in any state a step takes the first word at
most, and only in Ready. -/
def Obligations.CommandsWaitWhileBlocked : Prop :=
  (∀ (s : State) (i : Instr), (hostRow i).isSome = true → s.hostState ≠ .ready → exec i s = .next s) ∧
  (∀ (s t : State) (rest : List Turn), s.due = 0 → s.agenda = .host :: rest → s.hostState ≠ .ready →
    step s = .next t → t.port = s.port) ∧
  (∀ s t : State, s.hostState ≠ .ready → step s = .next t → s.port <+: t.port) ∧
  (∀ s t : State, step s = .next t →
    s.port <+: t.port ∨ (s.hostState = .ready ∧ ∃ w, s.port = w :: t.port))

/-! ## The PWM compiler -/

/-- R140, FBWR: the named channel of the named register takes the value, the other channels and registers keep theirs,
and of the rest only RESP changes. An index of 60 to 63 is IllegalCommand, and so is a word with channel code 3 or with a
bit set that must be 0. -/
def Obligations.FbwrResult : Prop :=
  (∀ (idx : BitVec 6) (ch : Channel) (v : Level), idx.toNat < 60 →
    decode (.host (0x1#4 ++ idx ++ ch.code ++ 0x000#12 ++ v)) = .ok (.fbwr idx ch v)) ∧
  (∀ (s : State) (idx : BitVec 6) (ch : Channel) (v : Level), s.hostState = .ready → idx.toNat < 60 →
    ∃ t, exec (.fbwr idx ch v) s = .next t ∧
      t = { s with x := t.x, resp := ⟨0, 0⟩, trace := s.trace ++ [.done ⟨0, 0⟩] } ∧
      (∀ (i : Fin 60) (c : Channel), channelOfPixel t.x[i.val] c =
        if i.val = idx.toNat ∧ c = ch then v else channelOfPixel s.x[i.val] c) ∧
      ∀ i : Fin 60, i.val ≠ idx.toNat → t.x[i.val] = s.x[i.val]) ∧
  (∀ (s : State) (idx : BitVec 6) (ch : Channel) (v : Level), s.hostState = .ready → 60 ≤ idx.toNat →
    exec (.fbwr idx ch v) s = .next { s with resp := ⟨1, 0⟩, trace := s.trace ++ [.done ⟨1, 0⟩] }) ∧
  (∀ w : Cmd, w.extractLsb' 28 4 = 0x1#4 →
    (60 ≤ (w.extractLsb' 22 6).toNat ∨ w.extractLsb' 20 2 = 3#2 ∨ w.extractLsb' 8 12 ≠ 0#12) →
      ∃ e, decode (.host w) = .error e)

/-- R141, COMPILE: every word of the slot 1 - write_slot takes the value of the word function, every other word keeps
its own, and of the rest only RESP changes. -/
def Obligations.CompileResult : Prop :=
  (∀ rot : Bool, decode (.host (0x2#4 ++ 0#27 ++ BitVec.ofBool rot)) = .ok (.compile rot)) ∧
  ∀ (s : State) (rot : Bool), s.hostState = .ready → s.table.wf →
    ∃ t, exec (.compile rot) s = .next t ∧
      t = { s with table := t.table, resp := ⟨0, 0⟩, trace := s.trace ++ [.done ⟨0, 0⟩] } ∧
      (∀ (g : Group) (step : Nat) (q : Quadrant), step < s.cfg.nStep →
        t.table.read (s.cfg.addr (1 - s.writeSlot) g step q) = s.tableWord g step q rot) ∧
      (∀ a, ¬ s.cfg.inSlot (1 - s.writeSlot) a → t.table.read a = s.table.read a)

/-- R142, the word function: bit WIRE_MAP(p, c) is set iff the step is no dead-time step and thr of the source register's
channel is above it; the bit outside WIRE_MAP's range is 0; and from step S on the word is 0x0000. -/
def Obligations.WordFunctionBits : Prop :=
  ∀ (s : State) (g : Group) (step : Nat) (q : Quadrant) (rot : Bool), s.cfg.Legal →
    (∀ (p : Position) (ch : Channel),
      (s.tableWord g step q rot).getLsbD (s.cfg.wireMap p ch).val =
        decide (step < s.cfg.pwmSteps ∧
          step < s.cfg.thr (channelOfPixel s.x[(s.cfg.src (phys g q p) rot).val] ch))) ∧
    (∀ b : Fin 16, s.cfg.UnusedBit b → (s.tableWord g step q rot).getLsbD b.val = false) ∧
    (s.cfg.pwmSteps ≤ step → s.tableWord g step q rot = 0x0000)

/-- R143: a COMPILE leaves 0x0000 in every dead-time word of its slot, whatever the slot held before. -/
def Obligations.CompileZeroesDeadTime : Prop :=
  ∀ (s t : State) (rot : Bool) (g : Group) (step : Nat) (q : Quadrant), s.hostState = .ready → s.table.wf →
    exec (.compile rot) s = .next t → s.cfg.pwmSteps ≤ step → step < s.cfg.nStep →
      t.table.read (s.cfg.addr (1 - s.writeSlot) g step q) = 0x0000

/-- R144, threshold PWM: in the words of a COMPILE the steps at which a channel is on are exactly 0 to thr(V) - 1; a
brighter value's contain a dimmer one's; thr(255) = S - 1 for S >= 2, the last PWM step is always off, nothing is on
for S = 1, and thr(V) = V for S = 256. R144 is the spec's own inference. -/
def Obligations.ThresholdPrefix : Prop :=
  (∀ (s : State) (g : Group) (step : Nat) (q : Quadrant) (rot : Bool) (p : Position) (ch : Channel), s.cfg.Legal →
    step < s.cfg.pwmSteps →
    ((s.tableWord g step q rot).getLsbD (s.cfg.wireMap p ch).val = true ↔
      step < (channelOfPixel s.x[(s.cfg.src (phys g q p) rot).val] ch).toNat >>> (8 - s.cfg.logS.val))) ∧
  (∀ (c : Config) (v w : Level), v ≤ w → c.thr v ≤ c.thr w) ∧
  (∀ (c : Config) (v : Level), c.thr v ≤ c.pwmSteps - 1) ∧
  (∀ c : Config, 2 ≤ c.pwmSteps → c.thr 255 = c.pwmSteps - 1) ∧
  (∀ (c : Config) (v : Level), c.pwmSteps = 1 → c.thr v = 0) ∧
  (∀ (c : Config) (v : Level), c.pwmSteps = 256 → c.thr v = v.toNat)

/-- R146, the round trip: from the words a COMPILE wrote, the number of steps at which a channel's bit is set gives
back its value with the low SHIFT bits cleared. R146 is the spec's own inference. -/
def Obligations.CompileRoundTrip : Prop :=
  ∀ (s t : State) (rot : Bool) (g : Group) (q : Quadrant) (p : Position) (ch : Channel), s.cfg.Legal →
    s.hostState = .ready → s.table.wf → exec (.compile rot) s = .next t →
    let v := (channelOfPixel s.x[(s.cfg.src (phys g q p) rot).val] ch).toNat
    let n := ((List.range s.cfg.pwmSteps).filter fun step =>
      (t.table.read (s.cfg.addr (1 - s.writeSlot) g step q)).getLsbD (s.cfg.wireMap p ch).val).length
    n * 2 ^ s.cfg.shift ≤ v ∧ v < n * 2 ^ s.cfg.shift + 2 ^ s.cfg.shift

/-- R69: a second COMPILE, and a second FBWR, with the same operands leaves the same state; only the record of outputs has
one more end of a command. The sentence is the spec's own inference. -/
def Obligations.CompileAndFbwrIdempotent : Prop :=
  (∀ (s t u : State) (rot : Bool), s.hostState = .ready → s.table.wf →
    exec (.compile rot) s = .next t → exec (.compile rot) t = .next u → u = { t with trace := u.trace }) ∧
  (∀ (s t u : State) (idx : BitVec 6) (ch : Channel) (v : Level), s.hostState = .ready →
    exec (.fbwr idx ch v) s = .next t → exec (.fbwr idx ch v) t = .next u → u = { t with trace := u.trace })

/-! ## The buffer exchange -/

/-- R190, SWAPREQ: write_slot flips and the Host waits; nothing else changes, and no response is given. Where no swap was
pending, one is now. -/
def Obligations.SwapreqResult : Prop :=
  decode (.host 0x30000000) = .ok .swapreq ∧
  ∀ s : State, s.hostState = .ready →
    exec .swapreq s = .next { s with writeSlot := 1 - s.writeSlot, hostState := .waitSwap } ∧
    (s.writeSlot = s.readSlot → (1 - s.writeSlot : Slot) ≠ s.readSlot)

/-- R191, the release: in WaitSwap the Host's step ends the command when write_slot = read_slot, and till then the Host
goes on waiting. -/
def Obligations.SwapreqRelease : Prop :=
  ∀ (s : State) (rest : List Turn), s.due = 0 → s.agenda = .host :: rest → s.hostState = .waitSwap →
    step s = .next
      (if s.writeSlot = s.readSlot then
        { s with agenda := rest, resp := ⟨0, 0⟩, hostState := .ready, trace := s.trace ++ [.done ⟨0, 0⟩] }
      else { s with agenda := rest })

/-! ## The scheduler -/

/-- R120, SCHREG. Period 0 is IllegalCommand. With the scheduler idle and room in the list the record becomes the head,
first firing at TICK + period; a full list is SchedFull. While the scheduler walks the command is held: the Host's steps
then change nothing, and when the scheduler is idle the next one ends it as above, with the TICK of that moment. -/
def Obligations.SchregResult : Prop :=
  (∀ (cb : BitVec 4) (period : BitVec 24), period ≠ 0 →
    decode (.host (0x4#4 ++ cb ++ period)) = .ok (.schreg cb period)) ∧
  (∀ (s : State) (cb : BitVec 4), s.hostState = .ready →
    exec (.schreg cb 0) s = .next { s with resp := ⟨1, 0⟩, trace := s.trace ++ [.done ⟨1, 0⟩] }) ∧
  (∀ (s : State) (cb : BitVec 4) (period : BitVec 24), s.hostState = .ready → s.schedState = .idle → period ≠ 0 →
    s.cblist.length < s.cfg.nCb →
      exec (.schreg cb period) s = .next
        { s with
          cblist := ⟨cb, period, BitVec.ofNat 64 (s.tick.toNat + period.toNat)⟩ :: s.cblist
          resp := ⟨0, 0⟩
          trace := s.trace ++ [.done ⟨0, 0⟩] }) ∧
  (∀ (s : State) (cb : BitVec 4) (period : BitVec 24), s.hostState = .ready → s.schedState = .idle → period ≠ 0 →
    s.cblist.length = s.cfg.nCb →
      exec (.schreg cb period) s = .next { s with resp := ⟨2, 0⟩, trace := s.trace ++ [.done ⟨2, 0⟩] }) ∧
  (∀ (s : State) (cb : BitVec 4) (period : BitVec 24), s.hostState = .ready → s.schedState ≠ .idle → period ≠ 0 →
    exec (.schreg cb period) s = .next { s with hostState := .waitSched cb period }) ∧
  (∀ (s : State) (cb : BitVec 4) (period : BitVec 24) (rest : List Turn), s.due = 0 → s.agenda = .host :: rest →
    s.hostState = .waitSched cb period → s.schedState ≠ .idle → step s = .next { s with agenda := rest }) ∧
  (∀ (s : State) (cb : BitVec 4) (period : BitVec 24) (rest : List Turn), s.due = 0 → s.agenda = .host :: rest →
    s.hostState = .waitSched cb period → s.schedState = .idle → period ≠ 0 →
      step s = exec (.schreg cb period) { s with agenda := rest, hostState := .ready })

/-- R212, SchedFull: with N_CB records in the list a SCHREG, at once or at the end of its hold, answers code 2 and leaves
the list as it is. -/
def Obligations.SchregOnFullList : Prop :=
  (∀ (s : State) (cb : BitVec 4) (period : BitVec 24), s.hostState = .ready → s.schedState = .idle → period ≠ 0 →
    s.cblist.length = s.cfg.nCb →
      exec (.schreg cb period) s = .next { s with resp := ⟨2, 0⟩, trace := s.trace ++ [.done ⟨2, 0⟩] }) ∧
  (∀ (s : State) (cb : BitVec 4) (period : BitVec 24) (rest : List Turn), s.due = 0 → s.agenda = .host :: rest →
    s.hostState = .waitSched cb period → s.schedState = .idle → s.cblist.length = s.cfg.nCb →
    step s = .next
      { s with agenda := rest, resp := ⟨2, 0⟩, hostState := .ready, trace := s.trace ++ [.done ⟨2, 0⟩] })

/-- R121, SCHED_TICK: in Idle TICK is incremented, modulo 2^64, and the walk begins at the head of the list; else nothing
changes. -/
def Obligations.SchedTickResult : Prop :=
  decode (.event 0b0001) = .ok .schedTick ∧
  (∀ s : State, s.schedState = .idle →
    exec .schedTick s = .next { s with tick := BitVec.ofNat 64 (s.tick.toNat + 1), schedState := .walk 0 }) ∧
  (∀ s : State, s.schedState ≠ .idle → exec .schedTick s = .next s)

/-- R127, a lost tick: a SCHED_TICK served during a walk is consumed, and nothing else changes: TICK is not incremented
and nothing records it. -/
def Obligations.SchedTickLostDuringWalk : Prop :=
  ∀ s : State, s.schedState ≠ .idle → s.due = 0b0001 → step s = .next { s with ev := noRequests }

/-- R122, the walk step: past the end the scheduler is idle; a due record's callback is started and waited for; a record
that is not due is passed over. -/
def Obligations.WalkStepResult : Prop :=
  ∀ (s : State) (i : Nat) (rest : List Turn), s.due = 0 → s.agenda = .walk :: rest → s.schedState = .walk i →
    (s.cblist.length ≤ i → step s = .next { s with agenda := rest, schedState := .idle }) ∧
    (∀ h : i < s.cblist.length,
      (s.cblist[i].nextFire.toNat ≤ s.tick.toNat →
        step s = .next
          { s with agenda := rest, schedState := .wait i, trace := s.trace ++ [.cbInvoke s.cblist[i].cb] }) ∧
      (s.tick.toNat < s.cblist[i].nextFire.toNat →
        step s = .next { s with agenda := rest, schedState := .walk (i + 1) }))

/-- R123, CB_RET: the record waited for advances by its period from its previous next_fire, every other record stays,
and the walk goes on; with no callback outstanding nothing changes. -/
def Obligations.CbRetResult : Prop :=
  decode (.event 0b1000) = .ok .cbRet ∧
  (∀ (s : State) (i : Nat), s.schedState = .wait i →
    ∃ t, exec .cbRet s = .next t ∧ t = { s with cblist := t.cblist, schedState := .walk (i + 1) } ∧
      ∀ j, t.cblist[j]? = if j = i then
          s.cblist[i]?.map fun r => ⟨r.cb, r.period, BitVec.ofNat 64 (r.nextFire.toNat + r.period.toNat)⟩
        else s.cblist[j]?) ∧
  (∀ s : State, (∀ i, s.schedState ≠ .wait i) → exec .cbRet s = .next s)

/-- R124, TICKRD. -/
def Obligations.TickrdResult : Prop :=
  decode (.host 0x50000000) = .ok .tickrd ∧
  ∀ s : State, s.hostState = .ready →
    exec .tickrd s = .next { s with resp := ⟨0, s.tick⟩, trace := s.trace ++ [.done ⟨0, s.tick⟩] }

/-- R126: in a SCHED_TICK with its whole walk, the callbacks due are invoked in list order, which is newest first,
each once, and exactly their records advance. That a SCHED_TICK, its walk and the returns are one round is R125's, the
spec's own inference. -/
def Obligations.CallbacksInListOrder : Prop :=
  ∀ s : State, s.schedState = .idle →
    schedRound s = .next
      { s with
        tick := s.tick + 1
        cblist := s.cblist.map fun r => if r.nextFire ≤ s.tick + 1 then r.advance else r
        trace := s.trace ++
          (s.cblist.filter fun r => decide (r.nextFire ≤ s.tick + 1)).map fun r => .cbInvoke r.cb }

/-- R125, the drift bound, below the wrap of TICK: over k SCHED_TICKs with their walks, from a state with no record
due, each record fires at its next_fire and every period after it and no other tick, its fire times advancing by
exactly its period, and no record is due at the end; a record registered at the start fires floor(k / period) times.
R125 is the spec's own inference. -/
def Obligations.CallbackDriftBound : Prop :=
  (∀ (s : State) (k : Nat), s.schedState = .idle → (∀ r ∈ s.cblist, r.period ≠ 0 ∧ s.tick < r.nextFire) →
    s.tick.toNat + k + 2 ^ 24 < 2 ^ 64 →
    ∃ t, schedRounds k s = .next t ∧ t.schedState = .idle ∧ t.tick.toNat = s.tick.toNat + k ∧
      t.cblist = s.cblist.map (fun r =>
        ⟨r.cb, r.period, BitVec.ofNat 64 (r.nextFire.toNat + firings s.tick.toNat k r * r.period.toNat)⟩) ∧
      (∀ r ∈ t.cblist, t.tick < r.nextFire) ∧
      ∃ new, t.trace = s.trace ++ new ∧ ∀ cb : BitVec 4,
        new.count (.cbInvoke cb) =
          ((s.cblist.filter fun r => decide (r.cb = cb)).map (firings s.tick.toNat k)).sum) ∧
  (∀ (r : CallbackRecord) (tick k : Nat), 0 < r.period.toNat → r.nextFire.toNat = tick + r.period.toNat →
    firings tick k r = k / r.period.toNat)

/-! ## The scan driver -/

/-- R161, the hold branch: while a transfer is in flight a SCAN_TICK changes no state at all, and the event is
consumed. -/
def Obligations.ScanTickHold : Prop :=
  (∀ s : State, s.xferBusy = true → exec .scanTick s = .next s) ∧
  (∀ s : State, s.xferBusy = true → s.due = 0b0010 → step s = .next { s with ev := noRequests })

/-- R162, the wrap branch: the counters move to step 0 of the next group, modulo 3, the swap is made where that is group
0 and one is pending, the new group's common line goes on, and nothing else changes: no transfer starts. -/
def Obligations.ScanTickWrap : Prop :=
  ∀ s : State, s.xferBusy = false → s.stepCtr = s.cfg.pwmSteps + s.cfg.d →
    ∃ t, exec .scanTick s = .next t ∧
      t.groupCtr.val = (s.groupCtr.val + 1) % 3 ∧
      t.stepCtr = 0 ∧
      t.readSlot = (if t.groupCtr.val = 0 ∧ s.writeSlot ≠ s.readSlot then s.writeSlot else s.readSlot) ∧
      (∀ b, b < 3 → t.common.getLsbD b = (s.common.getLsbD b || decide (b = t.groupCtr.val))) ∧
      t = { s with
            groupCtr := t.groupCtr, stepCtr := t.stepCtr, readSlot := t.readSlot, common := t.common
            trace := s.trace ++ [.common t.common] }

/-- R163, the issue branch: the four words at the scan position, quadrants 0 to 3, are copied, the transfer is in flight
with none of its bits sent, the step counter advances, and nothing else changes. -/
def Obligations.ScanTickIssue : Prop :=
  ∀ s : State, s.xferBusy = false → s.stepCtr < s.cfg.pwmSteps + s.cfg.d →
    ∃ t, exec .scanTick s = .next t ∧
      (∀ q : Quadrant, t.xferBuf[q.val] = s.table.read
        (((s.readSlot.toNat * 3 + s.groupCtr.val) * (s.cfg.pwmSteps + s.cfg.d) + s.stepCtr) * 4 + q.val)) ∧
      t = { s with
            xferBuf := t.xferBuf, xferBusy := true, shiftBusy := true, bitsSent := 0, stepCtr := s.stepCtr + 1 }

/-- R164, R105: a turn of the Shifter sends the next of the transfer's 64 bits, quadrant 0 first and each word most
significant bit first, as many as are left at most, and changes nothing else but SR; and however the transfer is split over
turns, the 64 bits are sent in that order and SR then holds the four words, whatever it held before. With the interface idle,
or nothing left to send, nothing changes. That the bits may be split over turns is the model's (log entry 10). -/
def Obligations.SerialStream : Prop :=
  (∀ (s : State) (n : Nat), s.shiftBusy = false ∨ 64 ≤ s.bitsSent → shiftBits n s = s) ∧
  (∀ (s : State) (n : Nat), s.shiftBusy = true → s.bitsSent ≤ 64 →
    let count := min n (64 - s.bitsSent)
    let t := shiftBits n s
    t = { s with bitsSent := s.bitsSent + count, sr := t.sr, fresh := t.fresh, trace := t.trace } ∧
      (0 < count → s.bitsSent + count = 64 → t.sr = s.xferBuf) ∧
      ∃ bits : List Bool, t.trace = s.trace ++ bits.map .sdata ∧ bits.length = count ∧
        ∀ (q : Quadrant) (k : Nat), k < 16 → s.bitsSent ≤ 16 * q.val + k → 16 * q.val + k < s.bitsSent + count →
          bits[16 * q.val + k - s.bitsSent]? = some ((s.xferBuf[q.val]).getLsbD (15 - k))) ∧
  (∀ (s : State) (turns : List Nat), s.shiftBusy = true → s.bitsSent = 0 → 64 ≤ turns.sum →
    let t := turns.foldl (fun s n => shiftBits n s) s
    t = { s with bitsSent := 64, sr := s.xferBuf, fresh := t.fresh, trace := t.trace } ∧
      ∃ bits : List Bool, t.trace = s.trace ++ bits.map .sdata ∧ bits.length = 64 ∧
        ∀ (q : Quadrant) (k : Nat), k < 16 →
          bits[16 * q.val + k]? = some ((s.xferBuf[q.val]).getLsbD (15 - k)))

/-- R165: the Shifter sets xfer_done and clears shift_busy in either order, with the same result. When the hand-over
may come is the model's reading (log entry 11). -/
def Obligations.ShifterFinishesInEitherOrder : Prop :=
  ∀ s : State, s.xferBusy = true → s.shiftBusy = true → s.bitsSent = 64 →
    drainInterface (handOverWord s) = { s with xferDone := true, shiftBusy := false } ∧
    handOverWord (drainInterface s) = { s with xferDone := true, shiftBusy := false }

/-- R166, the completion handler: nothing happens until xfer_done is set and the interface is idle; then one LATCH pulse
copies SR to OUT, then the group's common line goes off where the completed step, step_ctr - 1, is S, then the transfer
is over; nothing else changes. -/
def Obligations.XferDoneResult : Prop :=
  decode (.event 0b0100) = .ok .xferDone ∧
  (∀ s : State, (s.xferDone = false ∨ s.shiftBusy = true) → exec .xferDone s = .next s) ∧
  ∀ s : State, s.xferDone = true → s.shiftBusy = false →
    ∃ t, exec .xferDone s = .next t ∧ t.out = s.sr ∧ t.xferDone = false ∧ t.xferBusy = false ∧
      (∀ b, b < 3 → t.common.getLsbD b =
        (s.common.getLsbD b && !decide (s.stepCtr = s.cfg.pwmSteps + 1 ∧ b = s.groupCtr.val))) ∧
      t = { s with
            out := t.out, xferDone := t.xferDone, xferBusy := t.xferBusy, handlerLate := false, common := t.common
            trace := s.trace ++
              (if s.stepCtr = s.cfg.pwmSteps + 1 then [.latch, .common t.common] else [.latch]) }

/-- R166, R173: while the interface is busy, or no completion has been signalled, the handler changes nothing; and while
the transfer is in flight every SCAN_TICK is held. -/
def Obligations.StalledTransferHangs : Prop :=
  ∀ s : State, s.xferBusy = true → (s.shiftBusy = true ∨ s.xferDone = false) →
    exec .xferDone s = .next s ∧ exec .scanTick s = .next s

/-- R169, R170: with no tick held, the scan position after k SCAN_TICKs from the start of a group is group k div (S +
D + 1) further on, modulo 3, and step k mod (S + D + 1): groups in the order 0, 1, 2, steps in rising order, none
skipped or repeated, and one wrap tick for each group. R169 and R170 are the spec's own inferences. -/
def Obligations.ScanPositionAfterTicks : Prop :=
  ∀ (s : State) (k : Nat), s.xferBusy = false → s.xferDone = false → s.shiftBusy = false → s.stepCtr = 0 →
    ∃ t, scanRounds k s = .next t ∧ t.xferBusy = false ∧ t.xferDone = false ∧ t.shiftBusy = false ∧
      t.stepCtr = k % (s.cfg.pwmSteps + s.cfg.d + 1) ∧
      t.groupCtr.val = (s.groupCtr.val + k / (s.cfg.pwmSteps + s.cfg.d + 1)) % 3

/-- R192: with no tick held, a requested swap is made within 3 (S + D + 1) SCAN_TICKs, by the first of them that
enters group 0, and by none before it. R192 is the spec's own inference. -/
def Obligations.SwapWithinOneCycle : Prop :=
  ∀ s : State, s.xferBusy = false → s.xferDone = false → s.shiftBusy = false →
    s.stepCtr ≤ s.cfg.pwmSteps + s.cfg.d →
    ∃ n, n < 3 * (s.cfg.pwmSteps + s.cfg.d + 1) ∧
      (∀ k, k ≤ n → ∃ t, scanRounds k s = .next t ∧ t.readSlot = s.readSlot ∧ t.writeSlot = s.writeSlot) ∧
      ∃ t, scanRounds (n + 1) s = .next t ∧ t.readSlot = s.writeSlot ∧ t.groupCtr = 0 ∧ t.stepCtr = 0

/-! ## Reset and the invariant -/

/-- R37: the reset values, for every configuration. -/
def Obligations.ResetValues : Prop :=
  ∀ c : Config,
    let s := State.resetWith c
    (∀ i : Fin 60, s.x[i.val] = 0x000000) ∧ (∀ a, s.table.read a = 0x0000) ∧ s.writeSlot = 0 ∧ s.readSlot = 0 ∧
    s.groupCtr = 0 ∧ s.stepCtr = 0 ∧ s.hostState = .ready ∧ s.common = 0b001 ∧ s.xferBusy = false ∧
    s.xferDone = false ∧ s.shiftBusy = false ∧
    (∀ q : Quadrant, s.xferBuf[q.val] = 0x0000 ∧ s.sr[q.val] = 0x0000 ∧ s.out[q.val] = 0x0000) ∧
    s.tick = 0 ∧ s.cblist = [] ∧ s.schedState = .idle ∧ s.resp = ⟨0, 0⟩

/-- The invariant holds at reset, for every legal configuration; and the configuration of `State.reset`, whose open
parameters are free values (log entry 2), is legal, with the default S = 64 and D = 1 (R5, R6). -/
def Obligations.InvariantAtReset : Prop :=
  (∀ c : Config, c.Legal → (State.resetWith c).Inv) ∧
  State.reset.Inv ∧ State.reset.cfg.pwmSteps = 64 ∧ State.reset.cfg.d = 1

/-- R38 with R171, R172 and R193: every step keeps the invariant. R38, R171 and R172 are the spec's own inferences. -/
def Obligations.StepKeepsInvariant : Prop :=
  ∀ s t : State, s.Inv → step s = .next t → t.Inv

/-- R203: in the invariant every step has a next state, so the block never stops. -/
def Obligations.StepNeverStops : Prop :=
  ∀ s : State, s.Inv → ∃ t, step s = .next t

/-- R171: at most one common line is up, and the line of group g is up exactly from the wrap into g to the completion
of its first dead-time step. R171 is the spec's own inference. -/
def Obligations.CommonLinesNeverOverlap : Prop :=
  ∀ s : State, s.Inv →
    AtMostOneLine s.common ∧
    ∀ g : Group, s.common.getLsbD g.val = true ↔
      g = s.groupCtr ∧
        (s.stepCtr ≤ s.cfg.pwmSteps ∨ (s.stepCtr = s.cfg.pwmSteps + 1 ∧ s.xferBusy = true))

/-- R172, R168: an LED that is driven is one of the current group, and it is driven by that group's own word of a PWM
step that has been issued in this visit to the group. R168 and R172 are the spec's own inferences. -/
def Obligations.LedsDrivenByOwnWords : Prop :=
  ∀ (s : State) (g : Group) (q : Quadrant) (p : Position) (ch : Channel), s.Inv → s.ledDriven g q p ch = true →
    g = s.groupCtr ∧ ∃ step, step < s.cfg.pwmSteps ∧ step < s.stepCtr ∧
      (s.table.read (s.cfg.addr s.readSlot g step q)).getLsbD (s.cfg.wireMap p ch).val = true

/-! ## Rules about the whole block, from every state -/

/-- Every step keeps TABLE in its canonical form. The form is the model's (log entry 4). -/
def Obligations.StepKeepsTableCanonical : Prop :=
  ∀ s t : State, s.table.wf → step s = .next t → t.table.wf

/-- R38 (c), R193: that no swap is pending outside WaitSwap is kept by every step. R38 is the spec's own inference. -/
def Obligations.NoSwapPendingOutsideWait : Prop :=
  ∀ s t : State, (s.hostState ≠ .waitSwap → s.writeSlot = s.readSlot) → step s = .next t →
    (t.hostState ≠ .waitSwap → t.writeSlot = t.readSlot)

/-- R72, R76, R194: where no swap is pending outside WaitSwap, no step changes a word of the slot being read. R76 and
R194 are in part the spec's own inferences. -/
def Obligations.ReadSlotNeverWritten : Prop :=
  ∀ (s t : State) (a : Nat), s.table.wf → (s.hostState ≠ .waitSwap → s.writeSlot = s.readSlot) →
    step s = .next t → s.cfg.inSlot s.readSlot a → t.table.read a = s.table.read a

/-- R162, R194: read_slot changes only in a wrap from group 2 to group 0, with no transfer in flight, and becomes
write_slot; TABLE does not change in that step. -/
def Obligations.SwapOnlyAtCycleEnd : Prop :=
  ∀ s t : State, step s = .next t → t.readSlot ≠ s.readSlot →
    s.groupCtr = 2 ∧ s.stepCtr = s.cfg.nStep ∧ s.xferBusy = false ∧ t.groupCtr = 0 ∧ t.stepCtr = 0 ∧
      t.readSlot = s.writeSlot ∧ t.writeSlot = s.writeSlot ∧ t.table = s.table

/-- R27, R224: TICK changes only by an accepted SCHED_TICK, which adds 1. -/
def Obligations.TickWrittenBySchedTickOnly : Prop :=
  ∀ s t : State, step s = .next t → t.tick ≠ s.tick →
    s.schedState = .idle ∧ decode (.event s.due) = .ok .schedTick ∧ t.tick = s.tick + 1 ∧ t.schedState = .walk 0

/-- R35: no step writes the configuration. That it stands in the state is the model's (log entry 1). -/
def Obligations.ConfigurationNeverWritten : Prop :=
  ∀ s t : State, step s = .next t → t.cfg = s.cfg

/-- R36, R223, R24, R70, one writer for each element, the record of outputs growing beside them. The Host's commands write
only x, TABLE, write_slot, host_state, CBLIST, which they leave or prepend to, and RESP; COMPILE alone writes TABLE, and only
the half 1 - write_slot; the ends of the Host's waits write only host_state, RESP and CBLIST. The scheduler's events and its
walk step write only TICK, sched_state and the next_fire fields. SCAN_TICK writes only the scan position, COMMON, xfer_busy,
shift_busy and xfer_buf; XFER_DONE only OUT, COMMON, xfer_done and xfer_busy; the Shifter only SR, xfer_done and
shift_busy. (`bitsSent`, `fresh` and `handlerLate` are the model's own, log entries 8, 10 and 15.) -/
def Obligations.OneWriterForEachElement : Prop :=
  (∀ (i : Instr) (s t : State), (hostRow i).isSome = true → exec i s = .next t →
    t = { s with
          x := t.x, table := t.table, writeSlot := t.writeSlot, hostState := t.hostState, cblist := t.cblist
          resp := t.resp, trace := t.trace } ∧
    ((∀ rot, i ≠ .compile rot) → t.table = s.table) ∧
    (s.table.wf → ∀ a, ¬ s.cfg.inSlot (1 - s.writeSlot) a → t.table.read a = s.table.read a) ∧
    (t.cblist = s.cblist ∨ ∃ r, t.cblist = r :: s.cblist)) ∧
  (∀ s : State,
    releaseSwap s =
      { s with hostState := (releaseSwap s).hostState, resp := (releaseSwap s).resp, trace := (releaseSwap s).trace }) ∧
  (∀ (s : State) (cb : BitVec 4) (period : BitVec 24),
    let t := resumeSchreg cb period s
    t = { s with hostState := t.hostState, resp := t.resp, cblist := t.cblist, trace := t.trace } ∧
    (t.cblist = s.cblist ∨ ∃ r, t.cblist = r :: s.cblist)) ∧
  (∀ (i : Instr) (s t : State), i = .schedTick ∨ i = .cbRet → exec i s = .next t →
    t = { s with tick := t.tick, schedState := t.schedState, cblist := t.cblist } ∧
    t.cblist.map (fun r => (r.cb, r.period)) = s.cblist.map (fun r => (r.cb, r.period))) ∧
  (∀ s : State, walkStep s = { s with schedState := (walkStep s).schedState, trace := (walkStep s).trace }) ∧
  (∀ s t : State, exec .scanTick s = .next t →
    t = { s with
          readSlot := t.readSlot, groupCtr := t.groupCtr, stepCtr := t.stepCtr, common := t.common
          xferBusy := t.xferBusy, shiftBusy := t.shiftBusy, bitsSent := t.bitsSent, xferBuf := t.xferBuf
          trace := t.trace }) ∧
  (∀ s t : State, exec .xferDone s = .next t →
    t = { s with
          common := t.common, xferBusy := t.xferBusy, xferDone := t.xferDone, handlerLate := t.handlerLate
          out := t.out, trace := t.trace }) ∧
  (∀ (s : State) (n : Nat),
    let t := shiftBits n s
    t = { s with bitsSent := t.bitsSent, sr := t.sr, fresh := t.fresh, trace := t.trace }) ∧
  (∀ s : State, handOverWord s = { s with xferDone := (handOverWord s).xferDone }) ∧
  (∀ s : State, drainInterface s = { s with shiftBusy := (drainInterface s).shiftBusy })

/-- R219: the order in which a scheduler event and a scan event presented together are served does not matter to the
state. -/
def Obligations.SchedulerAndScanCommute : Prop :=
  ∀ (a b : Instr) (s : State), a = .schedTick ∨ a = .cbRet → b = .scanTick ∨ b = .xferDone →
    andThen (exec a s) (exec b) = andThen (exec b s) (exec a)

/-- R13, R26: outputs are only added, never taken back; and in the invariant every value driven on the common-enable
lines has at most one of them up. The record of outputs is the model's (log entry 16). -/
def Obligations.OutputsOnlyGrow : Prop :=
  ∀ s t : State, step s = .next t →
    ∃ new, t.trace = s.trace ++ new ∧ (s.Inv → ∀ v, Output.common v ∈ new → AtMostOneLine v)

/-- R94: status 3 is never produced, and data that is not 0 comes with status 0. -/
def Obligations.ResponseStatusLegal : Prop :=
  ∀ s t : State, (s.resp.status ≠ 3 ∧ (s.resp.data ≠ 0 → s.resp.status = 0)) → step s = .next t →
    (t.resp.status ≠ 3 ∧ (t.resp.data ≠ 0 → t.resp.status = 0))

/-- R62, R61: the linear word address; within 0 ..< 24 (S + D) every (slot, group, step, quadrant) has an address of its
own, and every address is one of them. -/
def Obligations.TableAddressesOneToOne : Prop :=
  ∀ c : Config,
    (∀ (slot : Slot) (g : Group) (step : Nat) (q : Quadrant), step < c.nStep →
      c.addr slot g step q = ((slot.toNat * 3 + g.val) * (c.pwmSteps + c.d) + step) * 4 + q.val ∧
      c.addr slot g step q < 24 * (c.pwmSteps + c.d)) ∧
    (∀ (slot slot' : Slot) (g g' : Group) (step step' : Nat) (q q' : Quadrant), step < c.nStep → step' < c.nStep →
      c.addr slot g step q = c.addr slot' g' step' q' → slot = slot' ∧ g = g' ∧ step = step' ∧ q = q') ∧
    (∀ a, a < 24 * (c.pwmSteps + c.d) →
      ∃ (slot : Slot) (g : Group) (step : Nat) (q : Quadrant), step < c.nStep ∧ c.addr slot g step q = a)

/-- R215: a block is built exactly from the legal parameters, and has the S and D it was built with. -/
def Obligations.IllegalConfigurationRefused : Prop :=
  ∀ (s d nCb refresh schedHz scanHz : Nat) (wire : Vector (Fin 16) 15) (rot : Vector (Fin 60) 60),
    ((∃ c, Config.build s d nCb wire rot refresh schedHz scanHz = some c) ↔
      (s ∈ [1, 2, 4, 8, 16, 32, 64, 128, 256] ∧ 1 ≤ d ∧ 1 ≤ nCb ∧ wire.toList.Nodup ∧ rot.toList.Nodup)) ∧
    (∀ c, Config.build s d nCb wire rot refresh schedHz scanHz = some c →
      c.pwmSteps = s ∧ c.d = d ∧ c.nCb = nCb ∧ c.wire = wire ∧ c.rot = rot)
end

