-- ==== Sys2Proof/Laws/State.lean ====
section
/-! SUPPORT. What each named update of the state does to each field: one lemma for a field and an update, true by rfl. -/

namespace Sys2Proof.Machine

variable (s : State)

/-! The fields after starting a transfer. -/

@[simp] theorem State.startTransfer_cfg (words : Vector Word 4) : (s.startTransfer words).cfg = s.cfg := rfl
@[simp] theorem State.startTransfer_x (words : Vector Word 4) : (s.startTransfer words).x = s.x := rfl
@[simp] theorem State.startTransfer_table (words : Vector Word 4) : (s.startTransfer words).table = s.table := rfl
@[simp] theorem State.startTransfer_readSlot (words : Vector Word 4) : (s.startTransfer words).readSlot = s.readSlot := rfl
@[simp] theorem State.startTransfer_groupCtr (words : Vector Word 4) : (s.startTransfer words).groupCtr = s.groupCtr := rfl
@[simp] theorem State.startTransfer_stepCtr (words : Vector Word 4) : (s.startTransfer words).stepCtr = s.stepCtr := rfl
@[simp] theorem State.startTransfer_writeSlot (words : Vector Word 4) : (s.startTransfer words).writeSlot = s.writeSlot := rfl
@[simp] theorem State.startTransfer_hostState (words : Vector Word 4) : (s.startTransfer words).hostState = s.hostState := rfl
@[simp] theorem State.startTransfer_common (words : Vector Word 4) : (s.startTransfer words).common = s.common := rfl
@[simp] theorem State.startTransfer_xferBusy (words : Vector Word 4) : (s.startTransfer words).xferBusy = true := rfl
@[simp] theorem State.startTransfer_xferDone (words : Vector Word 4) : (s.startTransfer words).xferDone = s.xferDone := rfl
@[simp] theorem State.startTransfer_handlerLate (words : Vector Word 4) : (s.startTransfer words).handlerLate = s.handlerLate := rfl
@[simp] theorem State.startTransfer_shiftBusy (words : Vector Word 4) : (s.startTransfer words).shiftBusy = true := rfl
@[simp] theorem State.startTransfer_bitsSent (words : Vector Word 4) : (s.startTransfer words).bitsSent = 0 := rfl
@[simp] theorem State.startTransfer_xferBuf (words : Vector Word 4) : (s.startTransfer words).xferBuf = words := rfl
@[simp] theorem State.startTransfer_sr (words : Vector Word 4) : (s.startTransfer words).sr = s.sr := rfl
@[simp] theorem State.startTransfer_out (words : Vector Word 4) : (s.startTransfer words).out = s.out := rfl
@[simp] theorem State.startTransfer_tick (words : Vector Word 4) : (s.startTransfer words).tick = s.tick := rfl
@[simp] theorem State.startTransfer_schedState (words : Vector Word 4) : (s.startTransfer words).schedState = s.schedState := rfl
@[simp] theorem State.startTransfer_cblist (words : Vector Word 4) : (s.startTransfer words).cblist = s.cblist := rfl
@[simp] theorem State.startTransfer_resp (words : Vector Word 4) : (s.startTransfer words).resp = s.resp := rfl
@[simp] theorem State.startTransfer_ev (words : Vector Word 4) : (s.startTransfer words).ev = s.ev := rfl
@[simp] theorem State.startTransfer_port (words : Vector Word 4) : (s.startTransfer words).port = s.port := rfl
@[simp] theorem State.startTransfer_trace (words : Vector Word 4) : (s.startTransfer words).trace = s.trace := rfl
@[simp] theorem State.startTransfer_agenda (words : Vector Word 4) : (s.startTransfer words).agenda = s.agenda := rfl
@[simp] theorem State.startTransfer_fresh (words : Vector Word 4) : (s.startTransfer words).fresh = s.fresh := rfl

/-! The fields after ending a transfer. -/

@[simp] theorem State.endTransfer_cfg : s.endTransfer.cfg = s.cfg := rfl
@[simp] theorem State.endTransfer_x : s.endTransfer.x = s.x := rfl
@[simp] theorem State.endTransfer_table : s.endTransfer.table = s.table := rfl
@[simp] theorem State.endTransfer_readSlot : s.endTransfer.readSlot = s.readSlot := rfl
@[simp] theorem State.endTransfer_groupCtr : s.endTransfer.groupCtr = s.groupCtr := rfl
@[simp] theorem State.endTransfer_stepCtr : s.endTransfer.stepCtr = s.stepCtr := rfl
@[simp] theorem State.endTransfer_writeSlot : s.endTransfer.writeSlot = s.writeSlot := rfl
@[simp] theorem State.endTransfer_hostState : s.endTransfer.hostState = s.hostState := rfl
@[simp] theorem State.endTransfer_common : s.endTransfer.common = s.common := rfl
@[simp] theorem State.endTransfer_xferBusy : s.endTransfer.xferBusy = false := rfl
@[simp] theorem State.endTransfer_xferDone : s.endTransfer.xferDone = false := rfl
@[simp] theorem State.endTransfer_handlerLate : s.endTransfer.handlerLate = false := rfl
@[simp] theorem State.endTransfer_shiftBusy : s.endTransfer.shiftBusy = s.shiftBusy := rfl
@[simp] theorem State.endTransfer_bitsSent : s.endTransfer.bitsSent = s.bitsSent := rfl
@[simp] theorem State.endTransfer_xferBuf : s.endTransfer.xferBuf = s.xferBuf := rfl
@[simp] theorem State.endTransfer_sr : s.endTransfer.sr = s.sr := rfl
@[simp] theorem State.endTransfer_out : s.endTransfer.out = s.out := rfl
@[simp] theorem State.endTransfer_tick : s.endTransfer.tick = s.tick := rfl
@[simp] theorem State.endTransfer_schedState : s.endTransfer.schedState = s.schedState := rfl
@[simp] theorem State.endTransfer_cblist : s.endTransfer.cblist = s.cblist := rfl
@[simp] theorem State.endTransfer_resp : s.endTransfer.resp = s.resp := rfl
@[simp] theorem State.endTransfer_ev : s.endTransfer.ev = s.ev := rfl
@[simp] theorem State.endTransfer_port : s.endTransfer.port = s.port := rfl
@[simp] theorem State.endTransfer_trace : s.endTransfer.trace = s.trace := rfl
@[simp] theorem State.endTransfer_agenda : s.endTransfer.agenda = s.agenda := rfl
@[simp] theorem State.endTransfer_fresh : s.endTransfer.fresh = s.fresh := rfl

/-! The fields after energizing a line. -/

@[simp] theorem State.energize_cfg (g : Group) : (s.energize g).cfg = s.cfg := rfl
@[simp] theorem State.energize_x (g : Group) : (s.energize g).x = s.x := rfl
@[simp] theorem State.energize_table (g : Group) : (s.energize g).table = s.table := rfl
@[simp] theorem State.energize_readSlot (g : Group) : (s.energize g).readSlot = s.readSlot := rfl
@[simp] theorem State.energize_groupCtr (g : Group) : (s.energize g).groupCtr = s.groupCtr := rfl
@[simp] theorem State.energize_stepCtr (g : Group) : (s.energize g).stepCtr = s.stepCtr := rfl
@[simp] theorem State.energize_writeSlot (g : Group) : (s.energize g).writeSlot = s.writeSlot := rfl
@[simp] theorem State.energize_hostState (g : Group) : (s.energize g).hostState = s.hostState := rfl
@[simp] theorem State.energize_common (g : Group) : (s.energize g).common = s.common ||| groupLine g := rfl
@[simp] theorem State.energize_xferBusy (g : Group) : (s.energize g).xferBusy = s.xferBusy := rfl
@[simp] theorem State.energize_xferDone (g : Group) : (s.energize g).xferDone = s.xferDone := rfl
@[simp] theorem State.energize_handlerLate (g : Group) : (s.energize g).handlerLate = s.handlerLate := rfl
@[simp] theorem State.energize_shiftBusy (g : Group) : (s.energize g).shiftBusy = s.shiftBusy := rfl
@[simp] theorem State.energize_bitsSent (g : Group) : (s.energize g).bitsSent = s.bitsSent := rfl
@[simp] theorem State.energize_xferBuf (g : Group) : (s.energize g).xferBuf = s.xferBuf := rfl
@[simp] theorem State.energize_sr (g : Group) : (s.energize g).sr = s.sr := rfl
@[simp] theorem State.energize_out (g : Group) : (s.energize g).out = s.out := rfl
@[simp] theorem State.energize_tick (g : Group) : (s.energize g).tick = s.tick := rfl
@[simp] theorem State.energize_schedState (g : Group) : (s.energize g).schedState = s.schedState := rfl
@[simp] theorem State.energize_cblist (g : Group) : (s.energize g).cblist = s.cblist := rfl
@[simp] theorem State.energize_resp (g : Group) : (s.energize g).resp = s.resp := rfl
@[simp] theorem State.energize_ev (g : Group) : (s.energize g).ev = s.ev := rfl
@[simp] theorem State.energize_port (g : Group) : (s.energize g).port = s.port := rfl
@[simp] theorem State.energize_trace (g : Group) : (s.energize g).trace = s.trace ++ [.common (s.common ||| groupLine g)] := rfl
@[simp] theorem State.energize_agenda (g : Group) : (s.energize g).agenda = s.agenda := rfl
@[simp] theorem State.energize_fresh (g : Group) : (s.energize g).fresh = s.fresh := rfl

/-! The fields after de-energizing a line. -/

@[simp] theorem State.deEnergize_cfg (g : Group) : (s.deEnergize g).cfg = s.cfg := rfl
@[simp] theorem State.deEnergize_x (g : Group) : (s.deEnergize g).x = s.x := rfl
@[simp] theorem State.deEnergize_table (g : Group) : (s.deEnergize g).table = s.table := rfl
@[simp] theorem State.deEnergize_readSlot (g : Group) : (s.deEnergize g).readSlot = s.readSlot := rfl
@[simp] theorem State.deEnergize_groupCtr (g : Group) : (s.deEnergize g).groupCtr = s.groupCtr := rfl
@[simp] theorem State.deEnergize_stepCtr (g : Group) : (s.deEnergize g).stepCtr = s.stepCtr := rfl
@[simp] theorem State.deEnergize_writeSlot (g : Group) : (s.deEnergize g).writeSlot = s.writeSlot := rfl
@[simp] theorem State.deEnergize_hostState (g : Group) : (s.deEnergize g).hostState = s.hostState := rfl
@[simp] theorem State.deEnergize_common (g : Group) : (s.deEnergize g).common = s.common &&& ~~~ groupLine g := rfl
@[simp] theorem State.deEnergize_xferBusy (g : Group) : (s.deEnergize g).xferBusy = s.xferBusy := rfl
@[simp] theorem State.deEnergize_xferDone (g : Group) : (s.deEnergize g).xferDone = s.xferDone := rfl
@[simp] theorem State.deEnergize_handlerLate (g : Group) : (s.deEnergize g).handlerLate = s.handlerLate := rfl
@[simp] theorem State.deEnergize_shiftBusy (g : Group) : (s.deEnergize g).shiftBusy = s.shiftBusy := rfl
@[simp] theorem State.deEnergize_bitsSent (g : Group) : (s.deEnergize g).bitsSent = s.bitsSent := rfl
@[simp] theorem State.deEnergize_xferBuf (g : Group) : (s.deEnergize g).xferBuf = s.xferBuf := rfl
@[simp] theorem State.deEnergize_sr (g : Group) : (s.deEnergize g).sr = s.sr := rfl
@[simp] theorem State.deEnergize_out (g : Group) : (s.deEnergize g).out = s.out := rfl
@[simp] theorem State.deEnergize_tick (g : Group) : (s.deEnergize g).tick = s.tick := rfl
@[simp] theorem State.deEnergize_schedState (g : Group) : (s.deEnergize g).schedState = s.schedState := rfl
@[simp] theorem State.deEnergize_cblist (g : Group) : (s.deEnergize g).cblist = s.cblist := rfl
@[simp] theorem State.deEnergize_resp (g : Group) : (s.deEnergize g).resp = s.resp := rfl
@[simp] theorem State.deEnergize_ev (g : Group) : (s.deEnergize g).ev = s.ev := rfl
@[simp] theorem State.deEnergize_port (g : Group) : (s.deEnergize g).port = s.port := rfl
@[simp] theorem State.deEnergize_trace (g : Group) : (s.deEnergize g).trace = s.trace ++ [.common (s.common &&& ~~~ groupLine g)] := rfl
@[simp] theorem State.deEnergize_agenda (g : Group) : (s.deEnergize g).agenda = s.agenda := rfl
@[simp] theorem State.deEnergize_fresh (g : Group) : (s.deEnergize g).fresh = s.fresh := rfl

/-! The fields after writing a channel of a framebuffer register. -/

@[simp] theorem State.setPixelChannel_cfg (i : Fin 60) (ch : Channel) (v : Level) : (s.setPixelChannel i ch v).cfg = s.cfg := rfl
@[simp] theorem State.setPixelChannel_x (i : Fin 60) (ch : Channel) (v : Level) : (s.setPixelChannel i ch v).x = s.x.set i.val (setChannelOfPixel s.x[i.val] ch v) := rfl
@[simp] theorem State.setPixelChannel_table (i : Fin 60) (ch : Channel) (v : Level) : (s.setPixelChannel i ch v).table = s.table := rfl
@[simp] theorem State.setPixelChannel_readSlot (i : Fin 60) (ch : Channel) (v : Level) : (s.setPixelChannel i ch v).readSlot = s.readSlot := rfl
@[simp] theorem State.setPixelChannel_groupCtr (i : Fin 60) (ch : Channel) (v : Level) : (s.setPixelChannel i ch v).groupCtr = s.groupCtr := rfl
@[simp] theorem State.setPixelChannel_stepCtr (i : Fin 60) (ch : Channel) (v : Level) : (s.setPixelChannel i ch v).stepCtr = s.stepCtr := rfl
@[simp] theorem State.setPixelChannel_writeSlot (i : Fin 60) (ch : Channel) (v : Level) : (s.setPixelChannel i ch v).writeSlot = s.writeSlot := rfl
@[simp] theorem State.setPixelChannel_hostState (i : Fin 60) (ch : Channel) (v : Level) : (s.setPixelChannel i ch v).hostState = s.hostState := rfl
@[simp] theorem State.setPixelChannel_common (i : Fin 60) (ch : Channel) (v : Level) : (s.setPixelChannel i ch v).common = s.common := rfl
@[simp] theorem State.setPixelChannel_xferBusy (i : Fin 60) (ch : Channel) (v : Level) : (s.setPixelChannel i ch v).xferBusy = s.xferBusy := rfl
@[simp] theorem State.setPixelChannel_xferDone (i : Fin 60) (ch : Channel) (v : Level) : (s.setPixelChannel i ch v).xferDone = s.xferDone := rfl
@[simp] theorem State.setPixelChannel_handlerLate (i : Fin 60) (ch : Channel) (v : Level) : (s.setPixelChannel i ch v).handlerLate = s.handlerLate := rfl
@[simp] theorem State.setPixelChannel_shiftBusy (i : Fin 60) (ch : Channel) (v : Level) : (s.setPixelChannel i ch v).shiftBusy = s.shiftBusy := rfl
@[simp] theorem State.setPixelChannel_bitsSent (i : Fin 60) (ch : Channel) (v : Level) : (s.setPixelChannel i ch v).bitsSent = s.bitsSent := rfl
@[simp] theorem State.setPixelChannel_xferBuf (i : Fin 60) (ch : Channel) (v : Level) : (s.setPixelChannel i ch v).xferBuf = s.xferBuf := rfl
@[simp] theorem State.setPixelChannel_sr (i : Fin 60) (ch : Channel) (v : Level) : (s.setPixelChannel i ch v).sr = s.sr := rfl
@[simp] theorem State.setPixelChannel_out (i : Fin 60) (ch : Channel) (v : Level) : (s.setPixelChannel i ch v).out = s.out := rfl
@[simp] theorem State.setPixelChannel_tick (i : Fin 60) (ch : Channel) (v : Level) : (s.setPixelChannel i ch v).tick = s.tick := rfl
@[simp] theorem State.setPixelChannel_schedState (i : Fin 60) (ch : Channel) (v : Level) : (s.setPixelChannel i ch v).schedState = s.schedState := rfl
@[simp] theorem State.setPixelChannel_cblist (i : Fin 60) (ch : Channel) (v : Level) : (s.setPixelChannel i ch v).cblist = s.cblist := rfl
@[simp] theorem State.setPixelChannel_resp (i : Fin 60) (ch : Channel) (v : Level) : (s.setPixelChannel i ch v).resp = s.resp := rfl
@[simp] theorem State.setPixelChannel_ev (i : Fin 60) (ch : Channel) (v : Level) : (s.setPixelChannel i ch v).ev = s.ev := rfl
@[simp] theorem State.setPixelChannel_port (i : Fin 60) (ch : Channel) (v : Level) : (s.setPixelChannel i ch v).port = s.port := rfl
@[simp] theorem State.setPixelChannel_trace (i : Fin 60) (ch : Channel) (v : Level) : (s.setPixelChannel i ch v).trace = s.trace := rfl
@[simp] theorem State.setPixelChannel_agenda (i : Fin 60) (ch : Channel) (v : Level) : (s.setPixelChannel i ch v).agenda = s.agenda := rfl
@[simp] theorem State.setPixelChannel_fresh (i : Fin 60) (ch : Channel) (v : Level) : (s.setPixelChannel i ch v).fresh = s.fresh := rfl

/-! The fields after an output. -/

@[simp] theorem State.emit_cfg (o : Output) : (s.emit o).cfg = s.cfg := rfl
@[simp] theorem State.emit_x (o : Output) : (s.emit o).x = s.x := rfl
@[simp] theorem State.emit_table (o : Output) : (s.emit o).table = s.table := rfl
@[simp] theorem State.emit_readSlot (o : Output) : (s.emit o).readSlot = s.readSlot := rfl
@[simp] theorem State.emit_groupCtr (o : Output) : (s.emit o).groupCtr = s.groupCtr := rfl
@[simp] theorem State.emit_stepCtr (o : Output) : (s.emit o).stepCtr = s.stepCtr := rfl
@[simp] theorem State.emit_writeSlot (o : Output) : (s.emit o).writeSlot = s.writeSlot := rfl
@[simp] theorem State.emit_hostState (o : Output) : (s.emit o).hostState = s.hostState := rfl
@[simp] theorem State.emit_common (o : Output) : (s.emit o).common = s.common := rfl
@[simp] theorem State.emit_xferBusy (o : Output) : (s.emit o).xferBusy = s.xferBusy := rfl
@[simp] theorem State.emit_xferDone (o : Output) : (s.emit o).xferDone = s.xferDone := rfl
@[simp] theorem State.emit_handlerLate (o : Output) : (s.emit o).handlerLate = s.handlerLate := rfl
@[simp] theorem State.emit_shiftBusy (o : Output) : (s.emit o).shiftBusy = s.shiftBusy := rfl
@[simp] theorem State.emit_bitsSent (o : Output) : (s.emit o).bitsSent = s.bitsSent := rfl
@[simp] theorem State.emit_xferBuf (o : Output) : (s.emit o).xferBuf = s.xferBuf := rfl
@[simp] theorem State.emit_sr (o : Output) : (s.emit o).sr = s.sr := rfl
@[simp] theorem State.emit_out (o : Output) : (s.emit o).out = s.out := rfl
@[simp] theorem State.emit_tick (o : Output) : (s.emit o).tick = s.tick := rfl
@[simp] theorem State.emit_schedState (o : Output) : (s.emit o).schedState = s.schedState := rfl
@[simp] theorem State.emit_cblist (o : Output) : (s.emit o).cblist = s.cblist := rfl
@[simp] theorem State.emit_resp (o : Output) : (s.emit o).resp = s.resp := rfl
@[simp] theorem State.emit_ev (o : Output) : (s.emit o).ev = s.ev := rfl
@[simp] theorem State.emit_port (o : Output) : (s.emit o).port = s.port := rfl
@[simp] theorem State.emit_trace (o : Output) : (s.emit o).trace = s.trace ++ [o] := rfl
@[simp] theorem State.emit_agenda (o : Output) : (s.emit o).agenda = s.agenda := rfl
@[simp] theorem State.emit_fresh (o : Output) : (s.emit o).fresh = s.fresh := rfl

/-! The fields after the end of a host command. -/

@[simp] theorem State.respond_cfg (r : Resp) : (s.respond r).cfg = s.cfg := rfl
@[simp] theorem State.respond_x (r : Resp) : (s.respond r).x = s.x := rfl
@[simp] theorem State.respond_table (r : Resp) : (s.respond r).table = s.table := rfl
@[simp] theorem State.respond_readSlot (r : Resp) : (s.respond r).readSlot = s.readSlot := rfl
@[simp] theorem State.respond_groupCtr (r : Resp) : (s.respond r).groupCtr = s.groupCtr := rfl
@[simp] theorem State.respond_stepCtr (r : Resp) : (s.respond r).stepCtr = s.stepCtr := rfl
@[simp] theorem State.respond_writeSlot (r : Resp) : (s.respond r).writeSlot = s.writeSlot := rfl
@[simp] theorem State.respond_hostState (r : Resp) : (s.respond r).hostState = .ready := rfl
@[simp] theorem State.respond_common (r : Resp) : (s.respond r).common = s.common := rfl
@[simp] theorem State.respond_xferBusy (r : Resp) : (s.respond r).xferBusy = s.xferBusy := rfl
@[simp] theorem State.respond_xferDone (r : Resp) : (s.respond r).xferDone = s.xferDone := rfl
@[simp] theorem State.respond_handlerLate (r : Resp) : (s.respond r).handlerLate = s.handlerLate := rfl
@[simp] theorem State.respond_shiftBusy (r : Resp) : (s.respond r).shiftBusy = s.shiftBusy := rfl
@[simp] theorem State.respond_bitsSent (r : Resp) : (s.respond r).bitsSent = s.bitsSent := rfl
@[simp] theorem State.respond_xferBuf (r : Resp) : (s.respond r).xferBuf = s.xferBuf := rfl
@[simp] theorem State.respond_sr (r : Resp) : (s.respond r).sr = s.sr := rfl
@[simp] theorem State.respond_out (r : Resp) : (s.respond r).out = s.out := rfl
@[simp] theorem State.respond_tick (r : Resp) : (s.respond r).tick = s.tick := rfl
@[simp] theorem State.respond_schedState (r : Resp) : (s.respond r).schedState = s.schedState := rfl
@[simp] theorem State.respond_cblist (r : Resp) : (s.respond r).cblist = s.cblist := rfl
@[simp] theorem State.respond_resp (r : Resp) : (s.respond r).resp = r := rfl
@[simp] theorem State.respond_ev (r : Resp) : (s.respond r).ev = s.ev := rfl
@[simp] theorem State.respond_port (r : Resp) : (s.respond r).port = s.port := rfl
@[simp] theorem State.respond_trace (r : Resp) : (s.respond r).trace = s.trace ++ [.done r] := rfl
@[simp] theorem State.respond_agenda (r : Resp) : (s.respond r).agenda = s.agenda := rfl
@[simp] theorem State.respond_fresh (r : Resp) : (s.respond r).fresh = s.fresh := rfl

/-! The fields after the end of a host command with status OK. -/

@[simp] theorem State.respondOk_cfg : s.respondOk.cfg = s.cfg := rfl
@[simp] theorem State.respondOk_x : s.respondOk.x = s.x := rfl
@[simp] theorem State.respondOk_table : s.respondOk.table = s.table := rfl
@[simp] theorem State.respondOk_readSlot : s.respondOk.readSlot = s.readSlot := rfl
@[simp] theorem State.respondOk_groupCtr : s.respondOk.groupCtr = s.groupCtr := rfl
@[simp] theorem State.respondOk_stepCtr : s.respondOk.stepCtr = s.stepCtr := rfl
@[simp] theorem State.respondOk_writeSlot : s.respondOk.writeSlot = s.writeSlot := rfl
@[simp] theorem State.respondOk_hostState : s.respondOk.hostState = .ready := rfl
@[simp] theorem State.respondOk_common : s.respondOk.common = s.common := rfl
@[simp] theorem State.respondOk_xferBusy : s.respondOk.xferBusy = s.xferBusy := rfl
@[simp] theorem State.respondOk_xferDone : s.respondOk.xferDone = s.xferDone := rfl
@[simp] theorem State.respondOk_handlerLate : s.respondOk.handlerLate = s.handlerLate := rfl
@[simp] theorem State.respondOk_shiftBusy : s.respondOk.shiftBusy = s.shiftBusy := rfl
@[simp] theorem State.respondOk_bitsSent : s.respondOk.bitsSent = s.bitsSent := rfl
@[simp] theorem State.respondOk_xferBuf : s.respondOk.xferBuf = s.xferBuf := rfl
@[simp] theorem State.respondOk_sr : s.respondOk.sr = s.sr := rfl
@[simp] theorem State.respondOk_out : s.respondOk.out = s.out := rfl
@[simp] theorem State.respondOk_tick : s.respondOk.tick = s.tick := rfl
@[simp] theorem State.respondOk_schedState : s.respondOk.schedState = s.schedState := rfl
@[simp] theorem State.respondOk_cblist : s.respondOk.cblist = s.cblist := rfl
@[simp] theorem State.respondOk_resp : s.respondOk.resp = ⟨0, 0⟩ := rfl
@[simp] theorem State.respondOk_ev : s.respondOk.ev = s.ev := rfl
@[simp] theorem State.respondOk_port : s.respondOk.port = s.port := rfl
@[simp] theorem State.respondOk_trace : s.respondOk.trace = s.trace ++ [.done ⟨0, 0⟩] := rfl
@[simp] theorem State.respondOk_agenda : s.respondOk.agenda = s.agenda := rfl
@[simp] theorem State.respondOk_fresh : s.respondOk.fresh = s.fresh := rfl

/-! The fields after an exception of a host command. -/

@[simp] theorem State.takeException_cfg (e : CommandException) : (s.takeException e).cfg = s.cfg := rfl
@[simp] theorem State.takeException_x (e : CommandException) : (s.takeException e).x = s.x := rfl
@[simp] theorem State.takeException_table (e : CommandException) : (s.takeException e).table = s.table := rfl
@[simp] theorem State.takeException_readSlot (e : CommandException) : (s.takeException e).readSlot = s.readSlot := rfl
@[simp] theorem State.takeException_groupCtr (e : CommandException) : (s.takeException e).groupCtr = s.groupCtr := rfl
@[simp] theorem State.takeException_stepCtr (e : CommandException) : (s.takeException e).stepCtr = s.stepCtr := rfl
@[simp] theorem State.takeException_writeSlot (e : CommandException) : (s.takeException e).writeSlot = s.writeSlot := rfl
@[simp] theorem State.takeException_hostState (e : CommandException) : (s.takeException e).hostState = .ready := rfl
@[simp] theorem State.takeException_common (e : CommandException) : (s.takeException e).common = s.common := rfl
@[simp] theorem State.takeException_xferBusy (e : CommandException) : (s.takeException e).xferBusy = s.xferBusy := rfl
@[simp] theorem State.takeException_xferDone (e : CommandException) : (s.takeException e).xferDone = s.xferDone := rfl
@[simp] theorem State.takeException_handlerLate (e : CommandException) : (s.takeException e).handlerLate = s.handlerLate := rfl
@[simp] theorem State.takeException_shiftBusy (e : CommandException) : (s.takeException e).shiftBusy = s.shiftBusy := rfl
@[simp] theorem State.takeException_bitsSent (e : CommandException) : (s.takeException e).bitsSent = s.bitsSent := rfl
@[simp] theorem State.takeException_xferBuf (e : CommandException) : (s.takeException e).xferBuf = s.xferBuf := rfl
@[simp] theorem State.takeException_sr (e : CommandException) : (s.takeException e).sr = s.sr := rfl
@[simp] theorem State.takeException_out (e : CommandException) : (s.takeException e).out = s.out := rfl
@[simp] theorem State.takeException_tick (e : CommandException) : (s.takeException e).tick = s.tick := rfl
@[simp] theorem State.takeException_schedState (e : CommandException) : (s.takeException e).schedState = s.schedState := rfl
@[simp] theorem State.takeException_cblist (e : CommandException) : (s.takeException e).cblist = s.cblist := rfl
@[simp] theorem State.takeException_resp (e : CommandException) : (s.takeException e).resp = ⟨statusOf e, 0⟩ := rfl
@[simp] theorem State.takeException_ev (e : CommandException) : (s.takeException e).ev = s.ev := rfl
@[simp] theorem State.takeException_port (e : CommandException) : (s.takeException e).port = s.port := rfl
@[simp] theorem State.takeException_trace (e : CommandException) : (s.takeException e).trace = s.trace ++ [.done ⟨statusOf e, 0⟩] := rfl
@[simp] theorem State.takeException_agenda (e : CommandException) : (s.takeException e).agenda = s.agenda := rfl
@[simp] theorem State.takeException_fresh (e : CommandException) : (s.takeException e).fresh = s.fresh := rfl

/-! The fields after serving a line. -/

@[simp] theorem State.consumeLine_cfg (i : Instr) : (s.consumeLine i).cfg = s.cfg := rfl
@[simp] theorem State.consumeLine_x (i : Instr) : (s.consumeLine i).x = s.x := rfl
@[simp] theorem State.consumeLine_table (i : Instr) : (s.consumeLine i).table = s.table := rfl
@[simp] theorem State.consumeLine_readSlot (i : Instr) : (s.consumeLine i).readSlot = s.readSlot := rfl
@[simp] theorem State.consumeLine_groupCtr (i : Instr) : (s.consumeLine i).groupCtr = s.groupCtr := rfl
@[simp] theorem State.consumeLine_stepCtr (i : Instr) : (s.consumeLine i).stepCtr = s.stepCtr := rfl
@[simp] theorem State.consumeLine_writeSlot (i : Instr) : (s.consumeLine i).writeSlot = s.writeSlot := rfl
@[simp] theorem State.consumeLine_hostState (i : Instr) : (s.consumeLine i).hostState = s.hostState := rfl
@[simp] theorem State.consumeLine_common (i : Instr) : (s.consumeLine i).common = s.common := rfl
@[simp] theorem State.consumeLine_xferBusy (i : Instr) : (s.consumeLine i).xferBusy = s.xferBusy := rfl
@[simp] theorem State.consumeLine_xferDone (i : Instr) : (s.consumeLine i).xferDone = s.xferDone := rfl
@[simp] theorem State.consumeLine_handlerLate (i : Instr) : (s.consumeLine i).handlerLate = s.handlerLate := rfl
@[simp] theorem State.consumeLine_shiftBusy (i : Instr) : (s.consumeLine i).shiftBusy = s.shiftBusy := rfl
@[simp] theorem State.consumeLine_bitsSent (i : Instr) : (s.consumeLine i).bitsSent = s.bitsSent := rfl
@[simp] theorem State.consumeLine_xferBuf (i : Instr) : (s.consumeLine i).xferBuf = s.xferBuf := rfl
@[simp] theorem State.consumeLine_sr (i : Instr) : (s.consumeLine i).sr = s.sr := rfl
@[simp] theorem State.consumeLine_out (i : Instr) : (s.consumeLine i).out = s.out := rfl
@[simp] theorem State.consumeLine_tick (i : Instr) : (s.consumeLine i).tick = s.tick := rfl
@[simp] theorem State.consumeLine_schedState (i : Instr) : (s.consumeLine i).schedState = s.schedState := rfl
@[simp] theorem State.consumeLine_cblist (i : Instr) : (s.consumeLine i).cblist = s.cblist := rfl
@[simp] theorem State.consumeLine_resp (i : Instr) : (s.consumeLine i).resp = s.resp := rfl
@[simp] theorem State.consumeLine_ev (i : Instr) : (s.consumeLine i).ev = s.ev.without i := rfl
@[simp] theorem State.consumeLine_port (i : Instr) : (s.consumeLine i).port = s.port := rfl
@[simp] theorem State.consumeLine_trace (i : Instr) : (s.consumeLine i).trace = s.trace := rfl
@[simp] theorem State.consumeLine_agenda (i : Instr) : (s.consumeLine i).agenda = s.agenda := rfl
@[simp] theorem State.consumeLine_fresh (i : Instr) : (s.consumeLine i).fresh = s.fresh := rfl

/-! The fields after raising lines. -/

@[simp] theorem State.raiseLines_cfg (lines : EvLines) : (s.raiseLines lines).cfg = s.cfg := rfl
@[simp] theorem State.raiseLines_x (lines : EvLines) : (s.raiseLines lines).x = s.x := rfl
@[simp] theorem State.raiseLines_table (lines : EvLines) : (s.raiseLines lines).table = s.table := rfl
@[simp] theorem State.raiseLines_readSlot (lines : EvLines) : (s.raiseLines lines).readSlot = s.readSlot := rfl
@[simp] theorem State.raiseLines_groupCtr (lines : EvLines) : (s.raiseLines lines).groupCtr = s.groupCtr := rfl
@[simp] theorem State.raiseLines_stepCtr (lines : EvLines) : (s.raiseLines lines).stepCtr = s.stepCtr := rfl
@[simp] theorem State.raiseLines_writeSlot (lines : EvLines) : (s.raiseLines lines).writeSlot = s.writeSlot := rfl
@[simp] theorem State.raiseLines_hostState (lines : EvLines) : (s.raiseLines lines).hostState = s.hostState := rfl
@[simp] theorem State.raiseLines_common (lines : EvLines) : (s.raiseLines lines).common = s.common := rfl
@[simp] theorem State.raiseLines_xferBusy (lines : EvLines) : (s.raiseLines lines).xferBusy = s.xferBusy := rfl
@[simp] theorem State.raiseLines_xferDone (lines : EvLines) : (s.raiseLines lines).xferDone = s.xferDone := rfl
@[simp] theorem State.raiseLines_handlerLate (lines : EvLines) : (s.raiseLines lines).handlerLate = (s.handlerLate && !lines.getLsbD 2) := rfl
@[simp] theorem State.raiseLines_shiftBusy (lines : EvLines) : (s.raiseLines lines).shiftBusy = s.shiftBusy := rfl
@[simp] theorem State.raiseLines_bitsSent (lines : EvLines) : (s.raiseLines lines).bitsSent = s.bitsSent := rfl
@[simp] theorem State.raiseLines_xferBuf (lines : EvLines) : (s.raiseLines lines).xferBuf = s.xferBuf := rfl
@[simp] theorem State.raiseLines_sr (lines : EvLines) : (s.raiseLines lines).sr = s.sr := rfl
@[simp] theorem State.raiseLines_out (lines : EvLines) : (s.raiseLines lines).out = s.out := rfl
@[simp] theorem State.raiseLines_tick (lines : EvLines) : (s.raiseLines lines).tick = s.tick := rfl
@[simp] theorem State.raiseLines_schedState (lines : EvLines) : (s.raiseLines lines).schedState = s.schedState := rfl
@[simp] theorem State.raiseLines_cblist (lines : EvLines) : (s.raiseLines lines).cblist = s.cblist := rfl
@[simp] theorem State.raiseLines_resp (lines : EvLines) : (s.raiseLines lines).resp = s.resp := rfl
@[simp] theorem State.raiseLines_ev (lines : EvLines) : (s.raiseLines lines).ev = s.ev.join (.ofLines lines) := rfl
@[simp] theorem State.raiseLines_port (lines : EvLines) : (s.raiseLines lines).port = s.port := rfl
@[simp] theorem State.raiseLines_trace (lines : EvLines) : (s.raiseLines lines).trace = s.trace := rfl
@[simp] theorem State.raiseLines_agenda (lines : EvLines) : (s.raiseLines lines).agenda = s.agenda := rfl
@[simp] theorem State.raiseLines_fresh (lines : EvLines) : (s.raiseLines lines).fresh = s.fresh := rfl

/-! The fields after the completion handler is late. -/

@[simp] theorem State.deferHandler_cfg : s.deferHandler.cfg = s.cfg := rfl
@[simp] theorem State.deferHandler_x : s.deferHandler.x = s.x := rfl
@[simp] theorem State.deferHandler_table : s.deferHandler.table = s.table := rfl
@[simp] theorem State.deferHandler_readSlot : s.deferHandler.readSlot = s.readSlot := rfl
@[simp] theorem State.deferHandler_groupCtr : s.deferHandler.groupCtr = s.groupCtr := rfl
@[simp] theorem State.deferHandler_stepCtr : s.deferHandler.stepCtr = s.stepCtr := rfl
@[simp] theorem State.deferHandler_writeSlot : s.deferHandler.writeSlot = s.writeSlot := rfl
@[simp] theorem State.deferHandler_hostState : s.deferHandler.hostState = s.hostState := rfl
@[simp] theorem State.deferHandler_common : s.deferHandler.common = s.common := rfl
@[simp] theorem State.deferHandler_xferBusy : s.deferHandler.xferBusy = s.xferBusy := rfl
@[simp] theorem State.deferHandler_xferDone : s.deferHandler.xferDone = s.xferDone := rfl
@[simp] theorem State.deferHandler_handlerLate : s.deferHandler.handlerLate = true := rfl
@[simp] theorem State.deferHandler_shiftBusy : s.deferHandler.shiftBusy = s.shiftBusy := rfl
@[simp] theorem State.deferHandler_bitsSent : s.deferHandler.bitsSent = s.bitsSent := rfl
@[simp] theorem State.deferHandler_xferBuf : s.deferHandler.xferBuf = s.xferBuf := rfl
@[simp] theorem State.deferHandler_sr : s.deferHandler.sr = s.sr := rfl
@[simp] theorem State.deferHandler_out : s.deferHandler.out = s.out := rfl
@[simp] theorem State.deferHandler_tick : s.deferHandler.tick = s.tick := rfl
@[simp] theorem State.deferHandler_schedState : s.deferHandler.schedState = s.schedState := rfl
@[simp] theorem State.deferHandler_cblist : s.deferHandler.cblist = s.cblist := rfl
@[simp] theorem State.deferHandler_resp : s.deferHandler.resp = s.resp := rfl
@[simp] theorem State.deferHandler_ev : s.deferHandler.ev = s.ev := rfl
@[simp] theorem State.deferHandler_port : s.deferHandler.port = s.port := rfl
@[simp] theorem State.deferHandler_trace : s.deferHandler.trace = s.trace := rfl
@[simp] theorem State.deferHandler_agenda : s.deferHandler.agenda = s.agenda := rfl
@[simp] theorem State.deferHandler_fresh : s.deferHandler.fresh = s.fresh := rfl

/-! The fields after the LATCH pulse. -/

@[simp] theorem latchOutputs_cfg : (latchOutputs s).cfg = s.cfg := rfl
@[simp] theorem latchOutputs_x : (latchOutputs s).x = s.x := rfl
@[simp] theorem latchOutputs_table : (latchOutputs s).table = s.table := rfl
@[simp] theorem latchOutputs_readSlot : (latchOutputs s).readSlot = s.readSlot := rfl
@[simp] theorem latchOutputs_groupCtr : (latchOutputs s).groupCtr = s.groupCtr := rfl
@[simp] theorem latchOutputs_stepCtr : (latchOutputs s).stepCtr = s.stepCtr := rfl
@[simp] theorem latchOutputs_writeSlot : (latchOutputs s).writeSlot = s.writeSlot := rfl
@[simp] theorem latchOutputs_hostState : (latchOutputs s).hostState = s.hostState := rfl
@[simp] theorem latchOutputs_common : (latchOutputs s).common = s.common := rfl
@[simp] theorem latchOutputs_xferBusy : (latchOutputs s).xferBusy = s.xferBusy := rfl
@[simp] theorem latchOutputs_xferDone : (latchOutputs s).xferDone = s.xferDone := rfl
@[simp] theorem latchOutputs_handlerLate : (latchOutputs s).handlerLate = s.handlerLate := rfl
@[simp] theorem latchOutputs_shiftBusy : (latchOutputs s).shiftBusy = s.shiftBusy := rfl
@[simp] theorem latchOutputs_bitsSent : (latchOutputs s).bitsSent = s.bitsSent := rfl
@[simp] theorem latchOutputs_xferBuf : (latchOutputs s).xferBuf = s.xferBuf := rfl
@[simp] theorem latchOutputs_sr : (latchOutputs s).sr = s.sr := rfl
@[simp] theorem latchOutputs_out : (latchOutputs s).out = s.sr := rfl
@[simp] theorem latchOutputs_tick : (latchOutputs s).tick = s.tick := rfl
@[simp] theorem latchOutputs_schedState : (latchOutputs s).schedState = s.schedState := rfl
@[simp] theorem latchOutputs_cblist : (latchOutputs s).cblist = s.cblist := rfl
@[simp] theorem latchOutputs_resp : (latchOutputs s).resp = s.resp := rfl
@[simp] theorem latchOutputs_ev : (latchOutputs s).ev = s.ev := rfl
@[simp] theorem latchOutputs_port : (latchOutputs s).port = s.port := rfl
@[simp] theorem latchOutputs_trace : (latchOutputs s).trace = s.trace ++ [.latch] := rfl
@[simp] theorem latchOutputs_agenda : (latchOutputs s).agenda = s.agenda := rfl
@[simp] theorem latchOutputs_fresh : (latchOutputs s).fresh = s.fresh := rfl

/-! The fields after the issue branch. -/

@[simp] theorem issueTransfer_cfg : (issueTransfer s).cfg = s.cfg := rfl
@[simp] theorem issueTransfer_x : (issueTransfer s).x = s.x := rfl
@[simp] theorem issueTransfer_table : (issueTransfer s).table = s.table := rfl
@[simp] theorem issueTransfer_readSlot : (issueTransfer s).readSlot = s.readSlot := rfl
@[simp] theorem issueTransfer_groupCtr : (issueTransfer s).groupCtr = s.groupCtr := rfl
@[simp] theorem issueTransfer_stepCtr : (issueTransfer s).stepCtr = s.stepCtr + 1 := rfl
@[simp] theorem issueTransfer_writeSlot : (issueTransfer s).writeSlot = s.writeSlot := rfl
@[simp] theorem issueTransfer_hostState : (issueTransfer s).hostState = s.hostState := rfl
@[simp] theorem issueTransfer_common : (issueTransfer s).common = s.common := rfl
@[simp] theorem issueTransfer_xferBusy : (issueTransfer s).xferBusy = true := rfl
@[simp] theorem issueTransfer_xferDone : (issueTransfer s).xferDone = s.xferDone := rfl
@[simp] theorem issueTransfer_handlerLate : (issueTransfer s).handlerLate = s.handlerLate := rfl
@[simp] theorem issueTransfer_shiftBusy : (issueTransfer s).shiftBusy = true := rfl
@[simp] theorem issueTransfer_bitsSent : (issueTransfer s).bitsSent = 0 := rfl
@[simp] theorem issueTransfer_xferBuf : (issueTransfer s).xferBuf = s.fetchWords s.readSlot s.groupCtr s.stepCtr := rfl
@[simp] theorem issueTransfer_sr : (issueTransfer s).sr = s.sr := rfl
@[simp] theorem issueTransfer_out : (issueTransfer s).out = s.out := rfl
@[simp] theorem issueTransfer_tick : (issueTransfer s).tick = s.tick := rfl
@[simp] theorem issueTransfer_schedState : (issueTransfer s).schedState = s.schedState := rfl
@[simp] theorem issueTransfer_cblist : (issueTransfer s).cblist = s.cblist := rfl
@[simp] theorem issueTransfer_resp : (issueTransfer s).resp = s.resp := rfl
@[simp] theorem issueTransfer_ev : (issueTransfer s).ev = s.ev := rfl
@[simp] theorem issueTransfer_port : (issueTransfer s).port = s.port := rfl
@[simp] theorem issueTransfer_trace : (issueTransfer s).trace = s.trace := rfl
@[simp] theorem issueTransfer_agenda : (issueTransfer s).agenda = s.agenda := rfl
@[simp] theorem issueTransfer_fresh : (issueTransfer s).fresh = s.fresh := rfl

/-! The fields after the wrap branch. -/

@[simp] theorem wrapGroup_cfg : (wrapGroup s).cfg = s.cfg := rfl
@[simp] theorem wrapGroup_x : (wrapGroup s).x = s.x := rfl
@[simp] theorem wrapGroup_table : (wrapGroup s).table = s.table := rfl
@[simp] theorem wrapGroup_readSlot : (wrapGroup s).readSlot = if nextGroup s.groupCtr = 0 ∧ s.swapPending then s.writeSlot else s.readSlot := rfl
@[simp] theorem wrapGroup_groupCtr : (wrapGroup s).groupCtr = nextGroup s.groupCtr := rfl
@[simp] theorem wrapGroup_stepCtr : (wrapGroup s).stepCtr = 0 := rfl
@[simp] theorem wrapGroup_writeSlot : (wrapGroup s).writeSlot = s.writeSlot := rfl
@[simp] theorem wrapGroup_hostState : (wrapGroup s).hostState = s.hostState := rfl
@[simp] theorem wrapGroup_common : (wrapGroup s).common = s.common ||| groupLine (nextGroup s.groupCtr) := rfl
@[simp] theorem wrapGroup_xferBusy : (wrapGroup s).xferBusy = s.xferBusy := rfl
@[simp] theorem wrapGroup_xferDone : (wrapGroup s).xferDone = s.xferDone := rfl
@[simp] theorem wrapGroup_handlerLate : (wrapGroup s).handlerLate = s.handlerLate := rfl
@[simp] theorem wrapGroup_shiftBusy : (wrapGroup s).shiftBusy = s.shiftBusy := rfl
@[simp] theorem wrapGroup_bitsSent : (wrapGroup s).bitsSent = s.bitsSent := rfl
@[simp] theorem wrapGroup_xferBuf : (wrapGroup s).xferBuf = s.xferBuf := rfl
@[simp] theorem wrapGroup_sr : (wrapGroup s).sr = s.sr := rfl
@[simp] theorem wrapGroup_out : (wrapGroup s).out = s.out := rfl
@[simp] theorem wrapGroup_tick : (wrapGroup s).tick = s.tick := rfl
@[simp] theorem wrapGroup_schedState : (wrapGroup s).schedState = s.schedState := rfl
@[simp] theorem wrapGroup_cblist : (wrapGroup s).cblist = s.cblist := rfl
@[simp] theorem wrapGroup_resp : (wrapGroup s).resp = s.resp := rfl
@[simp] theorem wrapGroup_ev : (wrapGroup s).ev = s.ev := rfl
@[simp] theorem wrapGroup_port : (wrapGroup s).port = s.port := rfl
@[simp] theorem wrapGroup_trace : (wrapGroup s).trace = s.trace ++ [.common (s.common ||| groupLine (nextGroup s.groupCtr))] := rfl
@[simp] theorem wrapGroup_agenda : (wrapGroup s).agenda = s.agenda := rfl
@[simp] theorem wrapGroup_fresh : (wrapGroup s).fresh = s.fresh := rfl

/-! The fields after a turn is taken off the agenda. -/

@[simp] theorem State.popTurn_cfg : s.popTurn.cfg = s.cfg := by
  unfold State.popTurn
  split <;> rfl
@[simp] theorem State.popTurn_x : s.popTurn.x = s.x := by
  unfold State.popTurn
  split <;> rfl
@[simp] theorem State.popTurn_table : s.popTurn.table = s.table := by
  unfold State.popTurn
  split <;> rfl
@[simp] theorem State.popTurn_readSlot : s.popTurn.readSlot = s.readSlot := by
  unfold State.popTurn
  split <;> rfl
@[simp] theorem State.popTurn_groupCtr : s.popTurn.groupCtr = s.groupCtr := by
  unfold State.popTurn
  split <;> rfl
@[simp] theorem State.popTurn_stepCtr : s.popTurn.stepCtr = s.stepCtr := by
  unfold State.popTurn
  split <;> rfl
@[simp] theorem State.popTurn_writeSlot : s.popTurn.writeSlot = s.writeSlot := by
  unfold State.popTurn
  split <;> rfl
@[simp] theorem State.popTurn_hostState : s.popTurn.hostState = s.hostState := by
  unfold State.popTurn
  split <;> rfl
@[simp] theorem State.popTurn_common : s.popTurn.common = s.common := by
  unfold State.popTurn
  split <;> rfl
@[simp] theorem State.popTurn_xferBusy : s.popTurn.xferBusy = s.xferBusy := by
  unfold State.popTurn
  split <;> rfl
@[simp] theorem State.popTurn_xferDone : s.popTurn.xferDone = s.xferDone := by
  unfold State.popTurn
  split <;> rfl
@[simp] theorem State.popTurn_handlerLate : s.popTurn.handlerLate = s.handlerLate := by
  unfold State.popTurn
  split <;> rfl
@[simp] theorem State.popTurn_shiftBusy : s.popTurn.shiftBusy = s.shiftBusy := by
  unfold State.popTurn
  split <;> rfl
@[simp] theorem State.popTurn_bitsSent : s.popTurn.bitsSent = s.bitsSent := by
  unfold State.popTurn
  split <;> rfl
@[simp] theorem State.popTurn_xferBuf : s.popTurn.xferBuf = s.xferBuf := by
  unfold State.popTurn
  split <;> rfl
@[simp] theorem State.popTurn_sr : s.popTurn.sr = s.sr := by
  unfold State.popTurn
  split <;> rfl
@[simp] theorem State.popTurn_out : s.popTurn.out = s.out := by
  unfold State.popTurn
  split <;> rfl
@[simp] theorem State.popTurn_tick : s.popTurn.tick = s.tick := by
  unfold State.popTurn
  split <;> rfl
@[simp] theorem State.popTurn_schedState : s.popTurn.schedState = s.schedState := by
  unfold State.popTurn
  split <;> rfl
@[simp] theorem State.popTurn_cblist : s.popTurn.cblist = s.cblist := by
  unfold State.popTurn
  split <;> rfl
@[simp] theorem State.popTurn_resp : s.popTurn.resp = s.resp := by
  unfold State.popTurn
  split <;> rfl
@[simp] theorem State.popTurn_ev : s.popTurn.ev = s.ev := by
  unfold State.popTurn
  split <;> rfl
@[simp] theorem State.popTurn_port : s.popTurn.port = s.port := by
  unfold State.popTurn
  split <;> rfl
@[simp] theorem State.popTurn_trace : s.popTurn.trace = s.trace := by
  unfold State.popTurn
  split <;> rfl

end Sys2Proof.Machine
end

