-- ==== Sys2Proof/Laws/Step.lean ====
section
/-! SUPPORT. What each shared operation and each agent's step can do, said once: the cases of acceptance, of the scheduler's
and the scan driver's branches, of the Shifter, of the Host's waits, and of a step. -/

namespace Sys2Proof.Machine

variable {s t : State}

theorem accept_ready (h : s.hostState = .ready) (k : State → State) : accept s k = k s := by
  unfold accept
  rw [h]

theorem accept_blocked (h : s.hostState ≠ .ready) (k : State → State) : accept s k = s := by
  unfold accept
  split
  · exact absurd (by assumption) h
  · rfl
  · rfl

/-- A host command either runs in Ready or changes nothing. -/
theorem accept_cases (s : State) (k : State → State) :
    (s.hostState = .ready ∧ accept s k = k s) ∨ (s.hostState ≠ .ready ∧ accept s k = s) := by
  by_cases h : s.hostState = .ready
  · exact .inl ⟨h, accept_ready h k⟩
  · exact .inr ⟨h, accept_blocked h k⟩

theorem registerCallback_cases (cb : BitVec 4) (period : BitVec 24) (s : State) :
    (s.cblist.length = s.cfg.nCb ∧ registerCallback cb period s = s.takeException .schedFull) ∨
    (s.cblist.length ≠ s.cfg.nCb ∧ registerCallback cb period s =
      { s with cblist := ⟨cb, period, s.tick + widenPeriod period⟩ :: s.cblist }.respondOk) := by
  unfold registerCallback
  split
  · exact .inl ⟨by assumption, rfl⟩
  · exact .inr ⟨by assumption, rfl⟩

theorem resumeSchreg_cases (cb : BitVec 4) (period : BitVec 24) (s : State) :
    (s.schedState = .idle ∧ resumeSchreg cb period s = registerCallback cb period s) ∨
    (s.schedState ≠ .idle ∧ resumeSchreg cb period s = s) := by
  unfold resumeSchreg
  split
  · exact .inl ⟨by assumption, rfl⟩
  · exact .inr ⟨by simp_all, rfl⟩
  · exact .inr ⟨by simp_all, rfl⟩

theorem releaseSwap_cases (s : State) :
    (s.writeSlot = s.readSlot ∧ releaseSwap s = s.respondOk) ∨ (s.writeSlot ≠ s.readSlot ∧ releaseSwap s = s) := by
  unfold releaseSwap State.swapPending
  by_cases h : s.writeSlot = s.readSlot <;> simp [h]

/-- The walk step's three branches, and that it does nothing outside Walk(i) (R122). -/
theorem walkStep_cases (s : State) :
    ((∀ i, s.schedState ≠ .walk i) ∧ walkStep s = s) ∨
    (∃ i, s.schedState = .walk i ∧ s.cblist[i]? = none ∧ walkStep s = { s with schedState := .idle }) ∨
    (∃ i r, s.schedState = .walk i ∧ s.cblist[i]? = some r ∧ r.nextFire ≤ s.tick ∧
      walkStep s = { s with schedState := .wait i }.emit (.cbInvoke r.cb)) ∨
    (∃ i r, s.schedState = .walk i ∧ s.cblist[i]? = some r ∧ ¬ r.nextFire ≤ s.tick ∧
      walkStep s = { s with schedState := .walk (i + 1) }) := by
  unfold walkStep
  split
  · exact .inl ⟨by simp_all, rfl⟩
  · exact .inl ⟨by simp_all, rfl⟩
  · rename_i i hi
    split
    · exact .inr (.inl ⟨i, hi, by assumption, rfl⟩)
    · rename_i r hr
      split
      · exact .inr (.inr (.inl ⟨i, r, hi, hr, by assumption, rfl⟩))
      · exact .inr (.inr (.inr ⟨i, r, hi, hr, by assumption, rfl⟩))

/-- SCAN_TICK's branches (R160). -/
theorem execScanTick_cases (s : State) :
    (s.xferBusy = true ∧ execScanTick s = .next s) ∨
    (s.xferBusy = false ∧ s.stepCtr = s.cfg.nStep ∧ execScanTick s = .next (wrapGroup s)) ∨
    (s.xferBusy = false ∧ s.stepCtr < s.cfg.nStep ∧ execScanTick s = .next (issueTransfer s)) ∨
    (s.xferBusy = false ∧ s.cfg.nStep < s.stepCtr ∧ execScanTick s = .fault .noSuchStep) := by
  unfold execScanTick
  cases hb : s.xferBusy
  · simp only [Bool.false_eq_true, if_false, true_and, false_and, false_or]
    rcases lt_trichotomy s.stepCtr s.cfg.nStep with h | h | h
    · rw [if_neg (by omega), if_pos h]
      exact .inr (.inl ⟨h, rfl⟩)
    · rw [if_pos h]
      exact .inl ⟨h, rfl⟩
    · rw [if_neg (by omega), if_neg (by omega)]
      exact .inr (.inr ⟨h, rfl⟩)
  · exact .inl ⟨rfl, rfl⟩

/-- The completion handler, field by field (R166). -/
theorem completeTransfer_eq (s : State) :
    completeTransfer s =
      { s with
        out := s.sr
        xferDone := false
        xferBusy := false
        handlerLate := false
        common := if s.stepCtr - 1 = s.cfg.pwmSteps then s.common &&& ~~~ groupLine s.groupCtr else s.common
        trace := s.trace ++ (if s.stepCtr - 1 = s.cfg.pwmSteps
          then [.latch, .common (s.common &&& ~~~ groupLine s.groupCtr)] else [.latch]) } := by
  unfold completeTransfer
  split
  · rename_i h
    simp [State.deEnergize, State.endTransfer, latchOutputs, State.emit]
  · rename_i h
    simp [State.endTransfer, latchOutputs, State.emit]

/-- The Shifter sends nothing, or some of the bits that are left (R164). -/
theorem shiftBits_cases (n : Nat) (s : State) :
    (¬ (s.shiftBusy = true ∧ s.bitsSent < transferBits ∧ 0 < n) ∧ shiftBits n s = s) ∨
    ((s.shiftBusy = true ∧ s.bitsSent < transferBits ∧ 0 < n) ∧ ∃ sr fresh,
      (s.bitsSent + min n (transferBits - s.bitsSent) = transferBits → sr = s.xferBuf) ∧
      shiftBits n s =
        { s with
          bitsSent := s.bitsSent + min n (transferBits - s.bitsSent)
          sr := sr
          fresh := fresh
          trace := s.trace ++ (List.range' s.bitsSent (min n (transferBits - s.bitsSent))).map
            fun k => .sdata (serialBit s.xferBuf k) }) := by
  unfold shiftBits
  split
  · rename_i h
    exact .inr ⟨h, _, _, fun e => if_pos e, rfl⟩
  · rename_i h
    exact .inl ⟨h, rfl⟩

/-- The four lines of an event vector. -/
theorem Requests.getLsbD_vector (r : Requests) (level : Bool) :
    (r.vector level).getLsbD 0 = r.schedTick ∧ (r.vector level).getLsbD 1 = r.scanTick ∧
      (r.vector level).getLsbD 2 = level ∧ (r.vector level).getLsbD 3 = r.cbRet := by
  obtain ⟨a, b, c⟩ := r
  revert a b c level
  decide

/-- The vector of no request and a level that is down is 0, and no other is. -/
theorem Requests.vector_eq_zero (r : Requests) (level : Bool) :
    r.vector level = 0 ↔ r = noRequests ∧ level = false := by
  obtain ⟨a, b, c⟩ := r
  revert a b c level
  decide

/-- Reading a vector as requests and a level gives the vector back. -/
theorem Requests.vector_ofLines (lines : EvLines) : (Requests.ofLines lines).vector (lines.getLsbD 2) = lines := by
  revert lines
  decide

/-- EV[2] is the level of xfer_done (R93). -/
@[simp] theorem State.lines_level (s : State) : s.lines.getLsbD 2 = s.xferDone :=
  (s.ev.getLsbD_vector s.xferDone).2.2.1

/-- XFER_DONE is served first whenever its handler can run (R219). -/
theorem decode_due_of_completionDue (h : s.completionDue = true) : decode (.event s.due) = .ok .xferDone := by
  have hb : s.due.getLsbD 2 = true := (s.ev.getLsbD_vector s.completionDue).2.2.1.trans h
  simp [decode, decodeEvent, hb]

/-- Which handler runs next decides what stands in the state (R219). -/
theorem decode_due_cases {i : Instr} (h : decode (.event s.due) = .ok i) :
    (i = .xferDone ∧ s.completionDue = true) ∨ (i = .scanTick ∧ s.completionDue = false ∧ s.ev.scanTick = true) ∨
    (i = .cbRet ∧ s.completionDue = false ∧ s.ev.scanTick = false ∧ s.ev.cbRet = true) ∨
    (i = .schedTick ∧ s.completionDue = false ∧ s.ev = ⟨true, false, false⟩) := by
  revert h
  unfold State.due
  generalize s.completionDue = level
  obtain ⟨a, b, c⟩ := s.ev
  cases level <;> cases a <;> cases b <;> cases c <;> rintro ⟨⟩ <;> decide

/-- With no event to serve a step is the turn at the head of the agenda. -/
theorem step_turn {a : Turn} {rest : List Turn} (he : s.due = 0) (ha : s.agenda = a :: rest) :
    step s = takeTurn a { s with agenda := rest } := by
  have h : decode (.event s.due) = .error .noLine := by
    rw [he]
    decide
  unfold step runStep
  rw [h]
  simp only [State.nextTurn, State.popTurn, ha]

/-- A step serves the event that is first, or is one agent's turn. -/
theorem step_cases (s : State) :
    (∃ i, decode (.event s.due) = .ok i ∧ step s = exec i (s.consumeLine i)) ∨
    (s.due = 0 ∧ step s = takeTurn s.nextTurn s.popTurn) := by
  have hz : ∀ l : EvLines, (∃ e, decode (.event l) = .error e) → l = 0 := by
    have : ∀ l : EvLines, l ≠ 0 → ∃ i ∈ [Instr.xferDone, .scanTick, .cbRet, .schedTick],
        decode (.event l) = .ok i := by decide
    intro l ⟨e, he⟩
    by_contra hl
    obtain ⟨i, -, hi⟩ := this l hl
    rw [he] at hi
    cases hi
  unfold step runStep
  split
  · rename_i i hi
    exact .inl ⟨i, hi, rfl⟩
  · rename_i e he
    exact .inr ⟨hz _ ⟨e, he⟩, rfl⟩

/-- The Host's step in Ready takes no word, runs the operation of the word it takes, or finds that word illegal. -/
theorem runCommand_cases (s : State) :
    (s.port = [] ∧ runCommand s = .next s) ∨
    (∃ w rest i, s.port = w :: rest ∧ decode (.host w) = .ok i ∧ runCommand s = exec i { s with port := rest }) ∨
    (∃ w rest e, s.port = w :: rest ∧ decode (.host w) = .error e ∧
      runCommand s = .next (takeIllegalCommand { s with port := rest })) := by
  unfold runCommand
  split
  · exact .inl ⟨by assumption, rfl⟩
  · rename_i w rest hp
    split
    · exact .inr (.inl ⟨w, rest, _, hp, by assumption, rfl⟩)
    · exact .inr (.inr ⟨w, rest, _, hp, by assumption, rfl⟩)

/-- A command word decodes to a host command. -/
theorem decode_host_isCommand {w : Cmd} {i : Instr} (h : decode (.host w) = .ok i) : (hostRow i).isSome = true := by
  simp only [decode, decodeHost, decodePlain, decodeFbwr, decodeSchreg] at h
  repeat' split at h
  all_goals cases h
  all_goals rfl

/-- An event vector decodes to an event. -/
theorem decode_event_isEvent {l : EvLines} {i : Instr} (h : decode (.event l) = .ok i) :
    i = .xferDone ∨ i = .scanTick ∨ i = .cbRet ∨ i = .schedTick := by
  simp only [decode, decodeEvent] at h
  repeat' split at h
  all_goals cases h
  all_goals simp

end Sys2Proof.Machine
end

