-- ==== Sys2Proof/Laws/Effect.lean ====
section
/-! SUPPORT. Everything a step can do to the state, said once: the changes that the operations and the agents' turns make,
each with the condition under which it happens. A rule about every step is a case analysis over `Effect`. -/

namespace Sys2Proof.Machine

/-- One change of the state by an operation or by an agent's turn. -/
inductive Effect (s : State) : State → Prop where
  /-- nothing changes: a held or lost tick, a waiting command, an agent that is not enabled -/
  | same : Effect s s
  /-- SchedTimer, ScanTimer or Callback raises lines -/
  | raise (lines : EvLines) : Effect s (s.raiseLines lines)
  /-- the next run of the completion handler is late (R218) -/
  | defer : Effect s s.deferHandler
  /-- the Host presents a word -/
  | present (w : Cmd) : Effect s { s with port := s.port ++ [w] }
  /-- NOP, TICKRD, an illegal word, or SCHREG on a full list -/
  | answer (r : Resp) (ready : s.hostState = .ready)
      (form : r = ⟨0, 0⟩ ∨ r = ⟨0, s.tick⟩ ∨ r = ⟨1, 0⟩ ∨ (r = ⟨2, 0⟩ ∧ s.cblist.length = s.cfg.nCb)) :
      Effect s (s.respond r)
  /-- FBWR (R140) -/
  | writePixel (i : Fin 60) (ch : Channel) (v : Level) (ready : s.hostState = .ready) :
      Effect s (s.setPixelChannel i ch v).respondOk
  /-- COMPILE (R141) -/
  | compile (rot : Bool) (ready : s.hostState = .ready) :
      Effect s { s with table := s.compiledTable rot }.respondOk
  /-- SWAPREQ (R190) -/
  | swapreq (ready : s.hostState = .ready) :
      Effect s { s with writeSlot := 1 - s.writeSlot, hostState := .waitSwap }
  /-- the release of R191 -/
  | release (waiting : s.hostState = .waitSwap) (swapped : s.writeSlot = s.readSlot) : Effect s s.respondOk
  /-- SCHREG finds the scheduler walking (R120) -/
  | hold (cb : BitVec 4) (period : BitVec 24) (ready : s.hostState = .ready) (walking : s.schedState ≠ .idle)
      (legal : period ≠ 0) : Effect s { s with hostState := .waitSched cb period }
  /-- SCHREG, at once or at the end of its hold (R120) -/
  | register (cb : BitVec 4) (period : BitVec 24)
      (waiting : (s.hostState = .ready ∧ period ≠ 0) ∨ s.hostState = .waitSched cb period)
      (idle : s.schedState = .idle) (room : s.cblist.length ≠ s.cfg.nCb) :
      Effect s { s with cblist := ⟨cb, period, s.tick + widenPeriod period⟩ :: s.cblist }.respondOk
  /-- a held SCHREG finds the list full (R212) -/
  | full (cb : BitVec 4) (period : BitVec 24) (waiting : s.hostState = .waitSched cb period)
      (idle : s.schedState = .idle) (noRoom : s.cblist.length = s.cfg.nCb) : Effect s (s.respond ⟨2, 0⟩)
  /-- SCHED_TICK (R121) -/
  | tick (idle : s.schedState = .idle) : Effect s { s with tick := s.tick + 1, schedState := .walk 0 }
  /-- the walk ends (R122) -/
  | walkEnd (i : Nat) (walking : s.schedState = .walk i) (past : s.cblist.length ≤ i) :
      Effect s { s with schedState := .idle }
  /-- the walk starts a callback (R122) -/
  | walkDue (i : Nat) (walking : s.schedState = .walk i) (inList : i < s.cblist.length)
      (due : s.cblist[i].nextFire ≤ s.tick) :
      Effect s ({ s with schedState := .wait i }.emit (.cbInvoke s.cblist[i].cb))
  /-- the walk passes a record over (R122) -/
  | walkPass (i : Nat) (walking : s.schedState = .walk i) (inList : i < s.cblist.length)
      (notDue : ¬ s.cblist[i].nextFire ≤ s.tick) : Effect s { s with schedState := .walk (i + 1) }
  /-- CB_RET (R123) -/
  | callbackReturn (i : Nat) (waiting : s.schedState = .wait i) :
      Effect s { s with cblist := s.cblist.modify i CallbackRecord.advance, schedState := .walk (i + 1) }
  /-- SCAN_TICK, the wrap branch (R162) -/
  | wrap (free : s.xferBusy = false) (finished : s.stepCtr = s.cfg.nStep) : Effect s (wrapGroup s)
  /-- SCAN_TICK, the issue branch (R163) -/
  | issue (free : s.xferBusy = false) (unfinished : s.stepCtr < s.cfg.nStep) : Effect s (issueTransfer s)
  /-- the Shifter sends bits (R164) -/
  | shift (n : Nat) : Effect s (shiftBits n s)
  /-- the Shifter hands over the fourth word (R165) -/
  | handOver (busy : s.xferBusy = true) : Effect s { s with xferDone := true }
  /-- the interface drains (R165) -/
  | drain (busy : s.shiftBusy = true) (sent : s.bitsSent = transferBits) : Effect s { s with shiftBusy := false }
  /-- XFER_DONE (R166) -/
  | complete (signalled : s.xferDone = true) (drained : s.shiftBusy = false) : Effect s (completeTransfer s)

variable {s t : State}

theorem effect_accept {k : State → State} (h : s.hostState = .ready → Effect s (k s)) : Effect s (accept s k) := by
  rcases accept_cases s k with ⟨hr, e⟩ | ⟨-, e⟩ <;> rw [e]
  · exact h hr
  · exact .same

theorem effect_illegal : Effect s (takeIllegalCommand s) :=
  effect_accept fun hr => .answer ⟨1, 0⟩ hr (by simp)

/-- Every operation's next state is one of the effects. -/
theorem exec_effect {i : Instr} (e : exec i s = .next t) : Effect s t := by
  cases i with
  | nop => cases e; exact effect_accept fun hr => .answer ⟨0, 0⟩ hr (by simp)
  | fbwr idx ch val =>
    cases e
    refine effect_accept fun hr => ?_
    split
    · exact .writePixel _ _ _ hr
    · exact .answer ⟨1, 0⟩ hr (by simp)
  | compile rot => cases e; exact effect_accept fun hr => .compile rot hr
  | swapreq => cases e; exact effect_accept fun hr => .swapreq hr
  | schreg cb period =>
    cases e
    refine effect_accept fun hr => ?_
    split
    · exact .answer ⟨1, 0⟩ hr (by simp)
    · rename_i hp
      split
      · rename_i hi
        rcases registerCallback_cases cb period s with ⟨hn, e⟩ | ⟨hn, e⟩ <;> rw [e]
        · exact .answer ⟨2, 0⟩ hr (by simp [hn])
        · exact .register cb period (.inl ⟨hr, hp⟩) hi hn
      · rename_i hw; exact .hold cb period hr (by simp [hw]) hp
      · rename_i hw; exact .hold cb period hr (by simp [hw]) hp
  | tickrd => cases e; exact effect_accept fun hr => .answer ⟨0, s.tick⟩ hr (by simp)
  | schedTick =>
    cases e
    split
    · exact .tick (by assumption)
    · exact .same
    · exact .same
  | scanTick =>
    rcases execScanTick_cases s with ⟨-, h⟩ | ⟨hb, hc, h⟩ | ⟨hb, hc, h⟩ | ⟨-, -, h⟩ <;> rw [exec, h] at e <;> cases e
    · exact .same
    · exact .wrap hb hc
    · exact .issue hb hc
  | xferDone =>
    cases e
    split
    · rename_i h; exact .complete h.1 (by simpa using h.2)
    · exact .same
  | cbRet =>
    cases e
    split
    · exact .same
    · exact .same
    · exact .callbackReturn _ (by assumption)

theorem walkStep_effect (s : State) : Effect s (walkStep s) := by
  rcases walkStep_cases s with ⟨-, e⟩ | ⟨i, hw, hn, e⟩ | ⟨i, r, hw, hr, hd, e⟩ | ⟨i, r, hw, hr, hd, e⟩ <;> rw [e]
  · exact .same
  · exact .walkEnd i hw (by simpa using hn)
  · obtain ⟨hi, rfl⟩ := List.getElem?_eq_some_iff.mp hr
    exact .walkDue i hw hi hd
  · obtain ⟨hi, rfl⟩ := List.getElem?_eq_some_iff.mp hr
    exact .walkPass i hw hi hd

theorem releaseSwap_effect (h : s.hostState = .waitSwap) : Effect s (releaseSwap s) := by
  rcases releaseSwap_cases s with ⟨hs, e⟩ | ⟨-, e⟩ <;> rw [e]
  · exact .release h hs
  · exact .same

theorem resumeSchreg_effect {cb : BitVec 4} {period : BitVec 24} (h : s.hostState = .waitSched cb period) :
    Effect s (resumeSchreg cb period s) := by
  rcases resumeSchreg_cases cb period s with ⟨hi, e⟩ | ⟨-, e⟩ <;> rw [e]
  · rcases registerCallback_cases cb period s with ⟨hn, e⟩ | ⟨hn, e⟩ <;> rw [e]
    · exact .full cb period h hi hn
    · exact .register cb period (.inr h) hi hn
  · exact .same

/-- A step is the bookkeeping of its turn, at the event lines, the agenda, the port and the counter of free values, and
then one of the effects. -/
theorem step_effect (e : step s = .next t) :
    ∃ ev agenda port fresh, Effect { s with ev := ev, agenda := agenda, port := port, fresh := fresh } t := by
  rcases step_cases s with ⟨i, -, h⟩ | ⟨-, h⟩ <;> rw [h] at e
  · exact ⟨_, _, _, _, exec_effect e⟩
  · obtain ⟨agenda, fresh, hp⟩ : ∃ agenda fresh, s.popTurn = { s with agenda := agenda, fresh := fresh } := by
      unfold State.popTurn
      split <;> exact ⟨_, _, rfl⟩
    rw [hp] at e
    have keep : ∀ {u : State}, Effect { s with agenda := agenda, fresh := fresh } u → .next u = Host.Outcome.next (φ := Fault) (ρ := Refusal) t →
        ∃ ev agenda port fresh, Effect { s with ev := ev, agenda := agenda, port := port, fresh := fresh } t := by
      intro u hu he
      cases he
      exact ⟨s.ev, agenda, s.port, fresh, hu⟩
    cases hn : s.nextTurn <;> rw [hn] at e <;> simp only [takeTurn] at e
    · exact keep (.raise _) e
    · exact keep .defer e
    · exact keep (.present _) e
    · unfold hostTurn at e
      split at e
      · rcases runCommand_cases { s with agenda := agenda, fresh := fresh } with
          ⟨-, h⟩ | ⟨w, rest, i, -, -, h⟩ | ⟨w, rest, er, -, -, h⟩ <;> rw [h] at e
        · exact keep .same e
        · exact ⟨_, _, _, _, exec_effect e⟩
        · cases e
          exact ⟨s.ev, agenda, rest, fresh, effect_illegal⟩
      · exact keep (releaseSwap_effect (by assumption)) e
      · exact keep (resumeSchreg_effect (by assumption)) e
    · exact keep (walkStep_effect _) e
    · exact keep (.shift _) e
    · refine keep ?_ e
      unfold handOverWord
      split
      · exact .handOver (by assumption)
      · exact .same
    · refine keep ?_ e
      unfold drainInterface
      split
      · rename_i h; exact .drain h.1 h.2
      · exact .same

end Sys2Proof.Machine
end

