-- ==== Sys2Proof/Laws/Memory.lean ====
section
/-! SUPPORT. The laws of TABLE as a memory: what a read finds after a write, that every write keeps the canonical form,
that two memories in canonical form with the same words are equal, and what a run of writes leaves. -/

namespace Sys2Proof.Machine

@[simp] theorem Memory.read_nil (a : Nat) : Memory.read [] a = 0 := rfl

theorem Memory.read_cons (b : Nat) (w : Word) (m : Memory) (a : Nat) :
    Memory.read ((b, w) :: m) a = if a = b then w else Memory.read m a := rfl

/-- Below its first address a memory in rising order holds nothing. -/
theorem Memory.read_eq_zero_of_lt {m : Memory} {a : Nat} (h : ∀ p ∈ m, a < p.1) : Memory.read m a = 0 := by
  induction m with
  | nil => rfl
  | cons p m ih =>
    obtain ⟨b, w⟩ := p
    have hb : a < b := h (b, w) (by simp)
    rw [Memory.read_cons, if_neg (by omega)]
    exact ih fun p hp => h p (by simp [hp])

theorem Memory.wf_cons {b : Nat} {w : Word} {m : Memory} :
    Memory.wf ((b, w) :: m) ↔ (∀ p ∈ m, b < p.1) ∧ w ≠ 0 ∧ Memory.wf m := by
  simp only [Memory.wf, List.pairwise_cons, List.forall_mem_cons]
  tauto

theorem Memory.wf_nil : Memory.wf [] := by simp [Memory.wf]

theorem Memory.mem_write {m : Memory} {a : Nat} {v : Word} {p : Nat × Word} (hp : p ∈ Memory.write m a v) :
    p ∈ m ∨ (p = (a, v) ∧ v ≠ 0) := by
  induction m with
  | nil =>
    simp only [Memory.write] at hp
    split at hp <;> simp_all
  | cons q m ih =>
    obtain ⟨b, w⟩ := q
    simp only [Memory.write] at hp
    split at hp
    · split at hp <;> simp_all
      tauto
    · split at hp
      · split at hp <;> simp_all
        tauto
      · rcases List.mem_cons.mp hp with rfl | hp
        · simp
        · rcases ih hp with h | h
          · simp [h]
          · exact .inr h

/-- A write keeps the canonical form. -/
theorem Memory.write_wf {m : Memory} (hm : Memory.wf m) (a : Nat) (v : Word) : Memory.wf (Memory.write m a v) := by
  induction m with
  | nil =>
    simp only [Memory.write]
    split
    · exact Memory.wf_nil
    · exact Memory.wf_cons.mpr ⟨by simp, by assumption, Memory.wf_nil⟩
  | cons q m ih =>
    obtain ⟨b, w⟩ := q
    obtain ⟨hb, hw, hm'⟩ := Memory.wf_cons.mp hm
    simp only [Memory.write]
    split
    · split
      · exact hm
      · refine Memory.wf_cons.mpr ⟨?_, by assumption, hm⟩
        intro p hp
        rcases List.mem_cons.mp hp with rfl | hp
        · assumption
        · exact lt_trans (by assumption) (hb p hp)
    · split
      · split
        · exact hm'
        · refine Memory.wf_cons.mpr ⟨?_, by assumption, hm'⟩
          intro p hp
          have := hb p hp
          omega
      · refine Memory.wf_cons.mpr ⟨?_, hw, ih hm'⟩
        intro p hp
        rcases Memory.mem_write hp with h | ⟨rfl, _⟩
        · exact hb p h
        · show b < a
          omega

/-- A read after a write: the word written at its address, and every other word as before. -/
theorem Memory.read_write {m : Memory} (hm : Memory.wf m) (a : Nat) (v : Word) (k : Nat) :
    Memory.read (Memory.write m a v) k = if k = a then v else Memory.read m k := by
  induction m with
  | nil =>
    simp only [Memory.write]
    split
    · simp_all
    · rfl
  | cons q m ih =>
    obtain ⟨b, w⟩ := q
    obtain ⟨hb, -, hm'⟩ := Memory.wf_cons.mp hm
    have hz : ∀ k, k ≤ b → Memory.read m k = 0 := fun k hk =>
      Memory.read_eq_zero_of_lt fun p hp => lt_of_le_of_lt hk (hb p hp)
    simp only [Memory.write]
    split
    · rename_i hab
      split
      · rename_i hv
        subst hv
        split
        · subst_vars
          rw [Memory.read_cons, if_neg (by omega)]
          exact hz _ (by omega)
        · rfl
      · rw [Memory.read_cons]
    · split
      · rename_i hab
        subst hab
        split
        · rename_i hv
          subst hv
          by_cases hk : k = a
          · rw [if_pos hk, hz k (by omega)]
          · rw [if_neg hk, Memory.read_cons, if_neg hk]
        · by_cases hk : k = a <;> simp [Memory.read_cons, hk]
      · rw [Memory.read_cons, Memory.read_cons, ih hm']
        by_cases hk : k = b
        · subst hk
          rw [if_pos rfl, if_pos rfl, if_neg (by omega)]
        · rw [if_neg hk, if_neg hk]

/-- Two memories in canonical form with the same words are the same list. -/
theorem Memory.ext_of_read {m n : Memory} (hm : Memory.wf m) (hn : Memory.wf n)
    (h : ∀ a, Memory.read m a = Memory.read n a) : m = n := by
  induction m generalizing n with
  | nil =>
    cases n with
    | nil => rfl
    | cons q n =>
      obtain ⟨b, w⟩ := q
      obtain ⟨-, hw, -⟩ := Memory.wf_cons.mp hn
      have := h b
      simp [Memory.read_cons] at this
      exact absurd this.symm hw
  | cons p m ih =>
    obtain ⟨a, v⟩ := p
    obtain ⟨ha, hv, hm'⟩ := Memory.wf_cons.mp hm
    cases n with
    | nil =>
      have := h a
      simp [Memory.read_cons] at this
      exact absurd this hv
    | cons q n =>
      obtain ⟨b, w⟩ := q
      obtain ⟨hb, hw, hn'⟩ := Memory.wf_cons.mp hn
      have hma : ∀ k, k ≤ a → Memory.read m k = 0 := fun k hk =>
        Memory.read_eq_zero_of_lt fun p hp => lt_of_le_of_lt hk (ha p hp)
      have hnb : ∀ k, k ≤ b → Memory.read n k = 0 := fun k hk =>
        Memory.read_eq_zero_of_lt fun p hp => lt_of_le_of_lt hk (hb p hp)
      have hab : a = b := by
        rcases lt_trichotomy a b with hlt | heq | hgt
        · have := h a
          rw [Memory.read_cons, if_pos rfl, Memory.read_cons, if_neg (by omega), hnb a (by omega)] at this
          exact absurd this hv
        · exact heq
        · have := h b
          rw [Memory.read_cons, if_neg (by omega), hma b (by omega), Memory.read_cons, if_pos rfl] at this
          exact absurd this.symm hw
      subst hab
      have hvw : v = w := by
        have := h a
        rwa [Memory.read_cons, if_pos rfl, Memory.read_cons, if_pos rfl] at this
      subst hvw
      have : m = n := by
        refine ih hm' hn' fun k => ?_
        by_cases hk : k = a
        · rw [hk, hma a le_rfl, hnb a le_rfl]
        · have := h k
          rwa [Memory.read_cons, if_neg hk, Memory.read_cons, if_neg hk] at this
      rw [this]

/-- A run of writes keeps the canonical form. -/
theorem Memory.foldl_write_wf {α : Type} (l : List α) (at_ : α → Nat) (val : α → Word) {m : Memory}
    (hm : Memory.wf m) : Memory.wf (l.foldl (fun m k => Memory.write m (at_ k) (val k)) m) := by
  induction l generalizing m with
  | nil => exact hm
  | cons k l ih => exact ih (Memory.write_wf hm _ _)

/-- A run of writes leaves every address it does not name as it was. -/
theorem Memory.read_foldl_write_of_not_mem {α : Type} (l : List α) (at_ : α → Nat) (val : α → Word)
    {m : Memory} (hm : Memory.wf m) {a : Nat} (ha : ∀ k ∈ l, at_ k ≠ a) :
    Memory.read (l.foldl (fun m k => Memory.write m (at_ k) (val k)) m) a = Memory.read m a := by
  induction l generalizing m with
  | nil => rfl
  | cons k l ih =>
    rw [List.foldl_cons, ih (Memory.write_wf hm _ _) fun j hj => ha j (by simp [hj]), Memory.read_write hm,
      if_neg (Ne.symm (ha k (by simp)))]

/-- A run of writes that gives each address one value leaves that value there. -/
theorem Memory.read_foldl_write_of_mem {α : Type} (l : List α) (at_ : α → Nat) (val : α → Word)
    {m : Memory} (hm : Memory.wf m) (hinj : ∀ j ∈ l, ∀ k ∈ l, at_ j = at_ k → val j = val k)
    {k : α} (hk : k ∈ l) :
    Memory.read (l.foldl (fun m k => Memory.write m (at_ k) (val k)) m) (at_ k) = val k := by
  induction l generalizing m k with
  | nil => simp at hk
  | cons j l ih =>
    rw [List.foldl_cons]
    by_cases hl : ∃ i ∈ l, at_ i = at_ k
    · obtain ⟨i, hi, hik⟩ := hl
      rw [← hik, ih (Memory.write_wf hm _ _) (fun a ha b hb => hinj a (by simp [ha]) b (by simp [hb])) hi]
      exact hinj i (by simp [hi]) k hk hik
    · have hno : ∀ i ∈ l, at_ i ≠ at_ k := fun i hi h => hl ⟨i, hi, h⟩
      rw [Memory.read_foldl_write_of_not_mem l at_ val (Memory.write_wf hm _ _) hno, Memory.read_write hm]
      have hjk : k = j := (List.mem_cons.mp hk).resolve_right fun h => hno k h rfl
      simp [hjk]

/-- What a run of writes lists is what was listed or one of the words written. -/
theorem Memory.mem_foldl_write {α : Type} (l : List α) (at_ : α → Nat) (val : α → Word) {m : Memory}
    {p : Nat × Word} (hp : p ∈ l.foldl (fun m k => Memory.write m (at_ k) (val k)) m) :
    p ∈ m ∨ ∃ k ∈ l, p.1 = at_ k := by
  induction l generalizing m with
  | nil => exact .inl hp
  | cons k l ih =>
    rcases ih hp with h | ⟨j, hj, h⟩
    · rcases Memory.mem_write h with h | ⟨rfl, -⟩
      · exact .inl h
      · exact .inr ⟨k, by simp, rfl⟩
    · exact .inr ⟨j, by simp [hj], h⟩

end Sys2Proof.Machine
end

