-- ==== Sys2Proof/Laws/Operands.lean ====
section
/-! SUPPORT. The laws of operand assembly: the table address and the slots (R62, R64), the physical index (R96), the
threshold (R95), the channels of a framebuffer register (R20), the common lines, and the bits of a table word (R142). -/

namespace Sys2Proof

theorem Config.pwmSteps_pos (c : Config) : 1 ≤ c.pwmSteps := Nat.one_le_two_pow

theorem Config.pwmSteps_lt_nStep {c : Config} (h : c.Legal) : c.pwmSteps < c.nStep := by
  have := h.1
  unfold Config.nStep
  omega

theorem Config.nStep_pos (c : Config) : 0 < c.nStep := by
  have := c.pwmSteps_pos
  unfold Config.nStep
  omega

/-- SHIFT and S fit together: S words of 2^SHIFT levels make the 256 levels of a channel. -/
theorem Config.pwmSteps_mul (c : Config) : c.pwmSteps * 2 ^ c.shift = 256 := by
  unfold Config.pwmSteps Config.shift
  rw [← Nat.pow_add]
  have : c.logS.val + (8 - c.logS.val) = 8 := by omega
  rw [this]

theorem Config.thr_eq_div (c : Config) (v : Level) : c.thr v = v.toNat / 2 ^ c.shift := by
  simp [Config.thr, Nat.shiftRight_eq_div_pow]

/-- thr(V) is at most S - 1 (R95). -/
theorem Config.thr_lt (c : Config) (v : Level) : c.thr v < c.pwmSteps := by
  rw [Config.thr_eq_div, Nat.div_lt_iff_lt_mul (by positivity), c.pwmSteps_mul]
  exact v.isLt

theorem slot_toNat_lt (slot : Slot) : slot.toNat < 2 := slot.isLt

/-- The address of a slot's word, as its slot's base and its place in the slot. -/
theorem Config.addr_eq (c : Config) (slot : Slot) (g : Group) (s : Nat) (q : Quadrant) :
    c.addr slot g s q = slot.toNat * (12 * c.nStep) + ((g.val * c.nStep + s) * 4 + q.val) := by
  unfold Config.addr
  ring

theorem Config.cell_lt (c : Config) (g : Group) {s : Nat} (hs : s < c.nStep) (q : Quadrant) :
    (g.val * c.nStep + s) * 4 + q.val < 12 * c.nStep := by
  have hg : g.val * c.nStep ≤ 2 * c.nStep := Nat.mul_le_mul_right _ (by omega)
  have := q.isLt
  omega

theorem Config.addr_inSlot (c : Config) (slot : Slot) (g : Group) {s : Nat} (hs : s < c.nStep) (q : Quadrant) :
    c.inSlot slot (c.addr slot g s q) := by
  have := c.cell_lt g hs q
  rw [Config.inSlot, Config.addr_eq]
  omega

/-- Every address that R62 gives names a word of TABLE. -/
theorem Config.addr_lt (c : Config) (slot : Slot) (g : Group) {s : Nat} (hs : s < c.nStep) (q : Quadrant) :
    c.addr slot g s q < c.tableWords := by
  have := c.cell_lt g hs q
  have : slot.toNat * (12 * c.nStep) ≤ 1 * (12 * c.nStep) :=
    Nat.mul_le_mul_right _ (by have := slot_toNat_lt slot; omega)
  rw [Config.addr_eq, Config.tableWords]
  omega

/-- The two slots have no address in common. -/
theorem Config.inSlot_disjoint {c : Config} {a b : Slot} (hab : a ≠ b) {k : Nat} (h : c.inSlot a k) :
    ¬ c.inSlot b k := by
  have ha := slot_toNat_lt a
  have hb := slot_toNat_lt b
  have hne : a.toNat ≠ b.toNat := fun h => hab (BitVec.eq_of_toNat_eq h)
  unfold Config.inSlot at *
  rcases (by omega : a.toNat = 0 ∧ b.toNat = 1 ∨ a.toNat = 1 ∧ b.toNat = 0) with ⟨h0, h1⟩ | ⟨h0, h1⟩ <;>
    rw [h0] at h <;> rw [h1] <;> omega

theorem Config.addr_inj {c : Config} {slot slot' : Slot} {g g' : Group} {s s' : Nat} {q q' : Quadrant}
    (hs : s < c.nStep) (hs' : s' < c.nStep) (h : c.addr slot g s q = c.addr slot' g' s' q') :
    slot = slot' ∧ g = g' ∧ s = s' ∧ q = q' := by
  have hslot : slot = slot' := by
    by_contra hne
    exact Config.inSlot_disjoint hne (c.addr_inSlot slot g hs q) (h ▸ c.addr_inSlot slot' g' hs' q')
  subst hslot
  rw [Config.addr_eq, Config.addr_eq] at h
  have hq := q.isLt
  have hq' := q'.isLt
  have h4 : g.val * c.nStep + s = g'.val * c.nStep + s' := by omega
  have hqq : q.val = q'.val := by omega
  have hgg : g.val = g'.val := by
    have e := congrArg (· / c.nStep) h4
    simpa [Nat.mul_comm _ c.nStep, Nat.mul_add_div c.nStep_pos, Nat.div_eq_of_lt hs, Nat.div_eq_of_lt hs'] using e
  rw [hgg] at h4
  exact ⟨rfl, Fin.ext hgg, by omega, Fin.ext hqq⟩

/-- Every address of a slot is that of one of its words. -/
theorem Config.exists_cell {c : Config} {slot : Slot} {a : Nat} (h : c.inSlot slot a) :
    ∃ (g : Group) (s : Nat) (q : Quadrant), s < c.nStep ∧ c.addr slot g s q = a := by
  have hn := c.nStep_pos
  obtain ⟨h1, h2⟩ := h
  obtain ⟨k, rfl⟩ := Nat.exists_eq_add_of_le h1
  have hk : k < 12 * c.nStep := by omega
  have hg : k / 4 / c.nStep < 3 := by
    rw [Nat.div_lt_iff_lt_mul hn]
    omega
  refine ⟨⟨k / 4 / c.nStep, hg⟩, k / 4 % c.nStep, ⟨k % 4, Nat.mod_lt _ (by omega)⟩, Nat.mod_lt _ hn, ?_⟩
  rw [Config.addr_eq]
  have e : k / 4 / c.nStep * c.nStep + k / 4 % c.nStep = k / 4 := by
    rw [Nat.mul_comm]
    exact Nat.div_add_mod _ _
  simp only [e]
  omega

theorem Config.mem_slotCells (c : Config) (k : Group × Nat × Quadrant) : k ∈ c.slotCells ↔ k.2.1 < c.nStep := by
  obtain ⟨g, s, q⟩ := k
  have hg : g ∈ groups := by revert g; decide
  have hq : q ∈ quadrants := by revert q; decide
  simp only [Config.slotCells, List.mem_flatMap, List.mem_map, List.mem_range, Prod.mk.injEq]
  constructor
  · rintro ⟨_, _, _, hs, _, _, _, rfl, _⟩
    exact hs
  · intro hs
    exact ⟨g, hg, s, hs, q, hq, rfl, rfl, rfl⟩

theorem Channel.place_injective : ∀ a b : Channel, a.place = b.place → a = b := by
  intro a b
  cases a <;> cases b <;> decide

/-- WIRE_MAP is injective where the configuration is legal (R8). -/
theorem Config.wireMap_injective {c : Config} (h : c.Legal) {p p' : Position} {ch ch' : Channel}
    (e : c.wireMap p ch = c.wireMap p' ch') : p = p' ∧ ch = ch' := by
  have hnd := h.2.2.1
  unfold Config.wireMap at e
  have hi : 3 * p.val + ch.place.val < 15 := by omega
  have hj : 3 * p'.val + ch'.place.val < 15 := by omega
  have hij : 3 * p.val + ch.place.val = 3 * p'.val + ch'.place.val := by
    have e' : c.wire.toList[3 * p.val + ch.place.val]'(by simpa using hi) =
        c.wire.toList[3 * p'.val + ch'.place.val]'(by simpa using hj) := by
      simpa using e
    exact (List.Nodup.getElem_inj_iff hnd).mp e'
  exact ⟨Fin.ext (by omega), Channel.place_injective _ _ (Fin.ext (by omega))⟩

@[simp] theorem channelOfPixel_setChannelOfPixel (v : Pixel) (ch ch' : Channel) (l : Level) :
    channelOfPixel (setChannelOfPixel v ch l) ch' = if ch' = ch then l else channelOfPixel v ch' := by
  cases ch <;> cases ch' <;>
    · simp only [channelOfPixel, setChannelOfPixel, reduceCtorEq, if_true, if_false]
      ext i hi
      simp only [BitVec.getElem_extractLsb', BitVec.getLsbD_append, BitVec.getLsbD_extractLsb']
      rcases (by omega : i = 0 ∨ i = 1 ∨ i = 2 ∨ i = 3 ∨ i = 4 ∨ i = 5 ∨ i = 6 ∨ i = 7) with
        rfl | rfl | rfl | rfl | rfl | rfl | rfl | rfl <;> simp [BitVec.getLsbD_eq_getElem]

/-- A framebuffer register is its three channels (R20). -/
theorem pixel_ext {v w : Pixel} (h : ∀ ch, channelOfPixel v ch = channelOfPixel w ch) : v = w := by
  have hr := congrArg BitVec.toNat (h .red)
  have hg := congrArg BitVec.toNat (h .green)
  have hb := congrArg BitVec.toNat (h .blue)
  simp only [channelOfPixel, BitVec.extractLsb'_toNat, Nat.shiftRight_eq_div_pow] at hr hg hb
  have := v.isLt
  have := w.isLt
  exact BitVec.eq_of_toNat_eq (by omega)

end Sys2Proof

namespace Sys2Proof.Machine

theorem groupLine_exclusive (g : Group) : AtMostOneLine (groupLine g) := by revert g; decide

theorem groupLine_getLsbD (g h : Group) : (groupLine g).getLsbD h.val = decide (g = h) := by
  revert g h
  decide

@[simp] theorem zero_or_groupLine (g : Group) : 0#3 ||| groupLine g = groupLine g := by revert g; decide

@[simp] theorem groupLine_and_not (g : Group) : groupLine g &&& ~~~ groupLine g = 0#3 := by revert g; decide

/-- The bits of a word with one bit set. -/
theorem getLsbD_one_shiftLeft (i b : Fin 16) : (1#16 <<< i.val).getLsbD b.val = decide (i = b) := by
  revert i b
  decide

/-- The bits of an OR of single bits: bit b is set iff one of the pairs that are on has it. -/
theorem getLsbD_foldl_or {α : Type} (l : List α) (on : α → Bool) (bit : α → Fin 16) (w : Word) (b : Fin 16) :
    (l.foldl (fun w k => w ||| (if on k then 1#16 <<< (bit k).val else 0)) w).getLsbD b.val =
      (w.getLsbD b.val || l.any fun k => on k && decide (bit k = b)) := by
  induction l generalizing w with
  | nil => simp
  | cons k l ih =>
    rw [List.foldl_cons, ih, List.any_cons, BitVec.getLsbD_or, Bool.or_assoc]
    congr 2
    by_cases h : on k
    · rw [if_pos h, getLsbD_one_shiftLeft, h, Bool.true_and]
    · simp [h]

theorem mem_ledPairs (p : Position) (ch : Channel) : (p, ch) ∈ ledPairs := by
  cases ch <;> revert p <;> decide

/-- Bit WIRE_MAP(p, c) of a table word says whether that channel is on (R63, R142). -/
theorem State.tableWord_wire {s : State} (h : s.cfg.Legal) (g : Group) (step : Nat) (q : Quadrant) (rot : Bool)
    (p : Position) (ch : Channel) :
    (s.tableWord g step q rot).getLsbD (s.cfg.wireMap p ch).val =
      (decide (step < s.cfg.pwmSteps) && s.channelOn g step q rot p ch) := by
  unfold State.tableWord
  split
  · rename_i hs
    simp [Nat.not_lt.mpr hs]
  · rename_i hs
    rw [getLsbD_foldl_or ledPairs (fun pc => s.channelOn g step q rot pc.1 pc.2)
      (fun pc => s.cfg.wireMap pc.1 pc.2)]
    have h0 : BitVec.getLsbD (0 : Word) (s.cfg.wireMap p ch).val = false := by simp
    rw [decide_eq_true (Nat.not_le.mp hs), Bool.true_and, h0, Bool.false_or]
    rw [Bool.eq_iff_iff, List.any_eq_true]
    constructor
    · rintro ⟨⟨p', ch'⟩, -, hk⟩
      simp only [Bool.and_eq_true, decide_eq_true_eq] at hk
      obtain ⟨rfl, rfl⟩ := Config.wireMap_injective h hk.2
      exact hk.1
    · intro hon
      exact ⟨(p, ch), mem_ledPairs p ch, by simp [hon]⟩

/-- The unused bit of a table word is 0 (R142). -/
theorem State.tableWord_unused {s : State} (g : Group) (step : Nat) (q : Quadrant) (rot : Bool) {b : Fin 16}
    (hb : s.cfg.UnusedBit b) : (s.tableWord g step q rot).getLsbD b.val = false := by
  unfold State.tableWord
  split
  · simp
  · rw [getLsbD_foldl_or ledPairs (fun pc => s.channelOn g step q rot pc.1 pc.2)
      (fun pc => s.cfg.wireMap pc.1 pc.2)]
    simp [hb _ _]

/-- A dead-time word is 0 (R143). -/
theorem State.tableWord_dead {s : State} (g : Group) {step : Nat} (q : Quadrant) (rot : Bool)
    (h : s.cfg.pwmSteps ≤ step) : s.tableWord g step q rot = 0 := by
  unfold State.tableWord
  rw [if_pos h]

end Sys2Proof.Machine
end

