-- ==== Sys2Proof/Laws/Invariant.lean ====
section
/-! SUPPORT. Each shared operation and each agent's step keeps the invariant of the reachable states, under what its
callers check before it; and the reset state has it. -/

namespace Sys2Proof.Machine

theorem TableOk.nil (c : Config) : TableOk c [] where
  wf := Memory.wf_nil
  inside := by simp
  deadTime := by simp
  unused := by simp

theorem Memory.readBlock_nil (a : Nat) : Memory.readBlock [] a = Vector.replicate 4 0 := rfl

/-- The reset state of a legal configuration has the invariant. -/
theorem State.resetWith_inv_of_legal {c : Config} (hc : c.Legal) : (State.resetWith c).Inv where
  legal := hc
  table := TableOk.nil c
  position := Nat.zero_le _
  inFlight := by simp [State.resetWith]
  doneBusy := by simp [State.resetWith]
  shiftingBusy := by simp [State.resetWith]
  sentBound := Nat.zero_le _
  shifted := by simp [State.resetWith]
  fetched := by simp [State.resetWith]
  outputs := by simp [State.resetWith, State.outDue, State.latchedStep]
  lines := by simp [State.resetWith, State.commonDue, groupLine]
  slots := by simp [State.resetWith]
  capacity := by simp [State.resetWith]
  periods := by simp [State.resetWith]
  heldPeriod := by simp [State.resetWith]
  walkIndex := by simp [State.resetWith]
  waitIndex := by simp [State.resetWith]

variable {s : State}

/-- What compiling leaves in TABLE: the target slot's words are those of R142, and the other words are as before. -/
theorem State.compiledTable_read_target (hm : s.table.wf) (rot : Bool) (g : Group) {step : Nat}
    (hs : step < s.cfg.nStep) (q : Quadrant) :
    (s.compiledTable rot).read (s.cfg.addr s.compileTarget g step q) = s.tableWord g step q rot := by
  have hinj : ∀ j ∈ s.cfg.slotCells, ∀ k ∈ s.cfg.slotCells,
      s.cfg.addr s.compileTarget j.1 j.2.1 j.2.2 = s.cfg.addr s.compileTarget k.1 k.2.1 k.2.2 →
        s.tableWord j.1 j.2.1 j.2.2 rot = s.tableWord k.1 k.2.1 k.2.2 rot := by
    intro j hj k hk e
    obtain ⟨-, h1, h2, h3⟩ := Config.addr_inj ((Config.mem_slotCells _ _).mp hj) ((Config.mem_slotCells _ _).mp hk) e
    rw [h1, h2, h3]
  exact Memory.read_foldl_write_of_mem s.cfg.slotCells (fun k => s.cfg.addr s.compileTarget k.1 k.2.1 k.2.2)
    (fun k => s.tableWord k.1 k.2.1 k.2.2 rot) hm hinj (k := (g, step, q)) ((Config.mem_slotCells _ _).mpr hs)

theorem State.compiledTable_read_other (hm : s.table.wf) (rot : Bool) {a : Nat}
    (ha : ¬ s.cfg.inSlot s.compileTarget a) : (s.compiledTable rot).read a = s.table.read a := by
  refine Memory.read_foldl_write_of_not_mem s.cfg.slotCells (fun k => s.cfg.addr s.compileTarget k.1 k.2.1 k.2.2)
    (fun k => s.tableWord k.1 k.2.1 k.2.2 rot) hm fun k hk e => ha ?_
  rw [← e]
  exact s.cfg.addr_inSlot _ _ ((Config.mem_slotCells _ _).mp hk) _

theorem State.compiledTable_wf (hm : s.table.wf) (rot : Bool) : (s.compiledTable rot).wf :=
  Memory.foldl_write_wf s.cfg.slotCells _ _ hm

/-- A word of a compiled table is a word of R142 or one that was there before. -/
theorem State.compiledTable_read_cases (hm : s.table.wf) (rot : Bool) (a : Nat) :
    (∃ g step q, step < s.cfg.nStep ∧ a = s.cfg.addr s.compileTarget g step q ∧
      (s.compiledTable rot).read a = s.tableWord g step q rot) ∨
    (¬ s.cfg.inSlot s.compileTarget a ∧ (s.compiledTable rot).read a = s.table.read a) := by
  by_cases ha : s.cfg.inSlot s.compileTarget a
  · obtain ⟨g, step, q, hs, rfl⟩ := Config.exists_cell ha
    exact .inl ⟨g, step, q, hs, rfl, State.compiledTable_read_target hm rot g hs q⟩
  · exact .inr ⟨ha, State.compiledTable_read_other hm rot ha⟩

theorem State.compiledTable_ok (h : TableOk s.cfg s.table) (rot : Bool) :
    TableOk s.cfg (s.compiledTable rot) where
  wf := State.compiledTable_wf h.wf rot
  inside := by
    intro p hp
    rcases Memory.mem_foldl_write s.cfg.slotCells _ _ hp with hp | ⟨k, hk, e⟩
    · exact h.inside p hp
    · rw [e]
      exact s.cfg.addr_lt _ _ ((Config.mem_slotCells _ _).mp hk) _
  deadTime := by
    intro slot g step q hd hs
    rcases State.compiledTable_read_cases h.wf rot (s.cfg.addr slot g step q) with ⟨g', step', q', hs', e, hr⟩ | ⟨-, hr⟩
    · obtain ⟨-, -, rfl, -⟩ := Config.addr_inj hs hs' e
      rw [hr, State.tableWord_dead _ _ _ hd]
    · rw [hr]
      exact h.deadTime slot g step q hd hs
  unused := by
    intro a b hb
    rcases State.compiledTable_read_cases h.wf rot a with ⟨g', step', q', -, -, hr⟩ | ⟨-, hr⟩
    · rw [hr]
      exact State.tableWord_unused _ _ _ _ hb
    · rw [hr]
      exact h.unused a b hb

/-- The four words of a time-slice, one by one. -/
theorem State.fetchWords_eq (s : State) (slot : Slot) (g : Group) (step : Nat) :
    s.fetchWords slot g step =
      #v[s.table.read (s.cfg.addr slot g step 0), s.table.read (s.cfg.addr slot g step 1),
        s.table.read (s.cfg.addr slot g step 2), s.table.read (s.cfg.addr slot g step 3)] := rfl

/-- The words of a dead-time step are zeros. -/
theorem State.fetchWords_dead (h : TableOk s.cfg s.table) (slot : Slot) (g : Group) {step : Nat}
    (hd : s.cfg.pwmSteps ≤ step) (hs : step < s.cfg.nStep) :
    s.fetchWords slot g step = Vector.replicate 4 0 := by
  rw [State.fetchWords_eq, h.deadTime _ _ _ _ hd hs, h.deadTime _ _ _ _ hd hs, h.deadTime _ _ _ _ hd hs,
    h.deadTime _ _ _ _ hd hs]
  rfl

theorem one_sub_slot_ne (slot : Slot) : (1 - slot : Slot) ≠ slot := by revert slot; decide

/-- Compiling does not change the words of a slot that is not its target (R72). -/
theorem State.fetchWords_compiledTable (hm : s.table.wf) (rot : Bool) {slot : Slot} (hne : slot ≠ s.compileTarget)
    (g : Group) {step : Nat} (hs : step < s.cfg.nStep) :
    State.fetchWords { s with table := s.compiledTable rot } slot g step = s.fetchWords slot g step := by
  have hr : ∀ q, (s.compiledTable rot).read (s.cfg.addr slot g step q) = s.table.read (s.cfg.addr slot g step q) :=
    fun q => State.compiledTable_read_other hm rot (Config.inSlot_disjoint hne (s.cfg.addr_inSlot slot g hs q))
  rw [State.fetchWords_eq, State.fetchWords_eq]
  simp only [hr]

/-- The latched step is one that was issued. -/
theorem State.latchedStep_lt {n : Nat} (hp : s.stepCtr ≤ s.cfg.nStep) (h : s.latchedStep = some n) :
    n < s.cfg.nStep := by
  unfold State.latchedStep at h
  split at h
  · simp_all
  · simp_all
    omega
  · cases h

/-- The group's line is up until its first dead-time step completes (R171). -/
theorem State.commonDue_on (h : s.stepCtr ≤ s.cfg.pwmSteps ∨ (s.stepCtr = s.cfg.pwmSteps + 1 ∧ s.xferBusy = true)) :
    s.commonDue = groupLine s.groupCtr := if_pos h

/-- From that completion to the next wrap no line is up (R171). -/
theorem State.commonDue_off
    (h : ¬ (s.stepCtr ≤ s.cfg.pwmSteps ∨ (s.stepCtr = s.cfg.pwmSteps + 1 ∧ s.xferBusy = true))) :
    s.commonDue = 0 := if_neg h

/-- What the outputs hold depends on TABLE only through the words of the latched step. -/
theorem State.outDue_congr {t : State} (hl : t.latchedStep = s.latchedStep)
    (hw : ∀ n, s.latchedStep = some n →
      t.fetchWords t.readSlot t.groupCtr n = s.fetchWords s.readSlot s.groupCtr n) : t.outDue = s.outDue := by
  unfold State.outDue
  rw [hl]
  split
  · rename_i n hn
    exact hw n hn
  · rfl

/-! Each operation keeps the invariant. -/

theorem State.Inv.respond (h : s.Inv) (hs : s.writeSlot = s.readSlot) (r : Resp) : (s.respond r).Inv :=
  { h with
    slots := fun _ => hs
    heldPeriod := by simp }

theorem State.Inv.setPixelChannel (h : s.Inv) (i : Fin 60) (ch : Channel) (v : Level) :
    (s.setPixelChannel i ch v).Inv :=
  { h with }

theorem State.Inv.compile (h : s.Inv) (hs : s.writeSlot = s.readSlot) (rot : Bool) :
    State.Inv { s with table := s.compiledTable rot } := by
  have hne : s.readSlot ≠ s.compileTarget := by
    rw [State.compileTarget, ← hs]
    exact (one_sub_slot_ne _).symm
  exact
    { h with
      table := State.compiledTable_ok h.table rot
      fetched := fun hb => by
        have h1 := h.inFlight hb
        have h2 := h.position
        exact (h.fetched hb).trans (State.fetchWords_compiledTable h.table.wf rot hne _ (by omega)).symm
      outputs := by
        refine h.outputs.trans (Eq.symm ?_)
        refine State.outDue_congr (s := s) rfl fun n hn => ?_
        exact State.fetchWords_compiledTable h.table.wf rot hne _ (State.latchedStep_lt h.position hn) }

theorem State.Inv.swapreq (h : s.Inv) :
    State.Inv { s with writeSlot := 1 - s.writeSlot, hostState := .waitSwap } :=
  { h with
    slots := fun hn => absurd rfl hn
    heldPeriod := by simp }

theorem State.Inv.hold (h : s.Inv) (hs : s.writeSlot = s.readSlot) {cb : BitVec 4} {period : BitVec 24} (hp : period ≠ 0) :
    State.Inv { s with hostState := .waitSched cb period } :=
  { h with
    slots := fun _ => hs
    heldPeriod := by
      intro cb' period' e
      injection e with _ e
      exact e ▸ hp }

theorem State.Inv.prepend (h : s.Inv) (hi : s.schedState = .idle) (hn : s.cblist.length ≠ s.cfg.nCb)
    {r : CallbackRecord} (hr : r.period ≠ 0) : State.Inv { s with cblist := r :: s.cblist } :=
  { h with
    capacity := by
      have := h.capacity
      simp only [List.length_cons]
      omega
    periods := by
      intro r' hr'
      rcases List.mem_cons.mp hr' with rfl | hr'
      · exact hr
      · exact h.periods r' hr'
    walkIndex := by simp [hi]
    waitIndex := by simp [hi] }

theorem State.Inv.registerCallback (h : s.Inv) (hs : s.writeSlot = s.readSlot) (hi : s.schedState = .idle)
    {cb : BitVec 4} {period : BitVec 24} (hp : period ≠ 0) : (registerCallback cb period s).Inv := by
  unfold Machine.registerCallback
  split
  · exact h.respond hs _
  · rename_i hn
    exact (h.prepend hi hn (r := ⟨cb, period, _⟩) hp).respond hs _

theorem State.Inv.startWalk (h : s.Inv) : State.Inv { s with tick := s.tick + 1, schedState := .walk 0 } :=
  { h with
    walkIndex := by
      intro i e
      injection e with e
      omega
    waitIndex := by simp }

theorem State.Inv.walkStep (h : s.Inv) : (walkStep s).Inv := by
  unfold Machine.walkStep
  split
  · exact h
  · exact h
  · rename_i i hi
    split
    · exact { h with walkIndex := by simp, waitIndex := by simp }
    · rename_i r hr
      have hlt : i < s.cblist.length := (List.getElem?_eq_some_iff.mp hr).1
      split
      · exact
          { h with
            walkIndex := by simp
            waitIndex := by
              intro j e
              simp only [State.emit_schedState, State.emit_cblist] at *
              injection e with e
              omega }
      · exact
          { h with
            walkIndex := by
              intro j e
              injection e with e
              simp only
              omega
            waitIndex := by simp }

theorem advance_period (r : CallbackRecord) : r.advance.period = r.period := rfl

theorem State.Inv.callbackReturn (h : s.Inv) {i : Nat} (hi : s.schedState = .wait i) :
    State.Inv { s with cblist := s.cblist.modify i CallbackRecord.advance, schedState := .walk (i + 1) } :=
  { h with
    capacity := by simpa using h.capacity
    periods := by
      intro r hr
      obtain ⟨k, hk⟩ := List.mem_iff_getElem?.mp hr
      rw [List.getElem?_modify] at hk
      obtain ⟨r', hr', e⟩ := Option.map_eq_some_iff.mp hk
      have hp := h.periods r' (List.mem_of_getElem? hr')
      split at e <;> subst e
      · exact hp
      · exact hp
    walkIndex := by
      intro j e
      have := h.waitIndex i hi
      injection e with e
      simp only [List.length_modify]
      omega
    waitIndex := by simp }

theorem State.Inv.wrapGroup (h : s.Inv) (hb : s.xferBusy = false) (hw : s.stepCtr = s.cfg.nStep) :
    (wrapGroup s).Inv := by
  have hlt := Config.pwmSteps_lt_nStep h.legal
  have hpos := s.cfg.pwmSteps_pos
  have hc : s.common = 0 := by
    rw [h.lines, State.commonDue_off]
    rw [hb, hw]
    rintro (hle | ⟨-, hf⟩)
    · omega
    · exact absurd hf (by simp)
  have ho : s.out = Vector.replicate 4 0 := by
    have hls : s.latchedStep = some (s.cfg.nStep - 1) := by
      obtain ⟨n, hn⟩ : ∃ n, s.stepCtr = n + 1 := ⟨s.cfg.nStep - 1, by omega⟩
      rw [State.latchedStep, hb, hn]
      simp only [Option.some.injEq]
      omega
    rw [h.outputs, State.outDue, hls]
    exact State.fetchWords_dead h.table _ _ (by omega) (by omega)
  exact
    { h with
      position := Nat.zero_le _
      inFlight := by simp [hb]
      fetched := by simp [hb]
      outputs := by
        simp only [wrapGroup_out, ho, State.outDue, State.latchedStep, wrapGroup_stepCtr]
      lines := by
        rw [State.commonDue_on (.inl (Nat.zero_le _)), wrapGroup_common, wrapGroup_groupCtr, hc]
        exact zero_or_groupLine _
      slots := by
        intro hn
        have := h.slots hn
        simp only [wrapGroup_writeSlot, wrapGroup_readSlot]
        split
        · rfl
        · exact this }

theorem State.Inv.issueTransfer (h : s.Inv) (hb : s.xferBusy = false) (hw : s.stepCtr < s.cfg.nStep) :
    (issueTransfer s).Inv :=
  { h with
    position := hw
    inFlight := fun _ => Nat.succ_le_succ (Nat.zero_le _)
    doneBusy := fun _ => rfl
    shiftingBusy := fun _ => rfl
    sentBound := Nat.zero_le _
    shifted := by
      intro _ hd
      rcases hd with hd | hd
      · exact absurd hd (by simp)
      · exact absurd (show (0 : Nat) = transferBits from hd) (by decide)
    fetched := fun _ => rfl
    outputs := by
      refine h.outputs.trans ?_
      rcases hn : s.stepCtr with _ | n
      · simp [State.outDue, State.latchedStep, hn, hb]
      · simp only [State.outDue, State.latchedStep, hn, hb, issueTransfer_stepCtr, issueTransfer_xferBusy]
        rfl
    lines := by
      rw [issueTransfer_common, h.lines]
      by_cases hle : s.stepCtr ≤ s.cfg.pwmSteps
      · rw [State.commonDue_on (.inl hle), State.commonDue_on, issueTransfer_groupCtr]
        simp only [issueTransfer_stepCtr, issueTransfer_cfg, issueTransfer_xferBusy, and_true]
        omega
      · have hoff : ¬ (s.stepCtr ≤ s.cfg.pwmSteps ∨ (s.stepCtr = s.cfg.pwmSteps + 1 ∧ s.xferBusy = true)) := by
          simp [hle, hb]
        rw [State.commonDue_off hoff, State.commonDue_off]
        simp only [issueTransfer_stepCtr, issueTransfer_cfg, issueTransfer_xferBusy, and_true]
        omega }

theorem State.Inv.shiftBits (h : s.Inv) (n : Nat) : (shiftBits n s).Inv := by
  unfold Machine.shiftBits
  split
  · rename_i hc
    exact
      { h with
        sentBound := by
          show s.bitsSent + min n (transferBits - s.bitsSent) ≤ transferBits
          omega
        shifted := by
          rintro hb (hd | hd)
          · exact absurd (hc.1.symm.trans hd) (by simp)
          · show (if _ then _ else _) = _
            rw [if_pos hd] }
  · exact h

theorem State.Inv.handOverWord (h : s.Inv) : (handOverWord s).Inv := by
  unfold Machine.handOverWord
  split
  · rename_i hb
    exact
      { h with
        doneBusy := fun _ => hb }
  · exact h

theorem State.Inv.drainInterface (h : s.Inv) : (drainInterface s).Inv := by
  unfold Machine.drainInterface
  split
  · rename_i hc
    exact
      { h with
        shiftingBusy := by simp
        shifted := fun hb _ => h.shifted hb (.inr hc.2) }
  · exact h

/-- The completion handler, when it may run, keeps the invariant. -/
theorem State.Inv.completeTransfer (h : s.Inv) (hd : s.xferDone = true) (hi : s.shiftBusy = false) : (completeTransfer s).Inv := by
  have hb := h.doneBusy hd
  have h1 := h.inFlight hb
  have hpos := s.cfg.pwmSteps_pos
  obtain ⟨n, hn⟩ : ∃ n, s.stepCtr = n + 1 := ⟨s.stepCtr - 1, by omega⟩
  have hout : ∀ t : State, t.table = s.table → t.cfg = s.cfg → t.readSlot = s.readSlot → t.groupCtr = s.groupCtr →
      t.stepCtr = s.stepCtr → t.xferBusy = false → s.sr = t.outDue := by
    intro t e1 e2 e3 e4 e5 e6
    rw [h.shifted hb (.inl hi), h.fetched hb]
    simp only [State.outDue, State.latchedStep, e5, e6, hn, State.fetchWords, e1, e2, e3, e4, Nat.add_sub_cancel]
  unfold Machine.completeTransfer
  split
  · rename_i hs
    refine
      { h with
        inFlight := by simp
        doneBusy := by simp
        shiftingBusy := by simp [hi]
        shifted := by simp
        fetched := by simp
        outputs := hout _ rfl rfl rfl rfl rfl rfl
        lines := ?_ }
    rw [State.endTransfer_common, State.deEnergize_common, latchOutputs_common, h.lines, State.commonDue_on,
      State.commonDue_off]
    · exact groupLine_and_not _
    · simp only [State.endTransfer_stepCtr, State.deEnergize_stepCtr, latchOutputs_stepCtr, State.endTransfer_cfg,
        State.deEnergize_cfg, latchOutputs_cfg, State.endTransfer_xferBusy]
      simp
      omega
    · exact .inr ⟨by omega, hb⟩
  · rename_i hs
    refine
      { h with
        inFlight := by simp
        doneBusy := by simp
        shiftingBusy := by simp [hi]
        shifted := by simp
        fetched := by simp
        outputs := hout _ rfl rfl rfl rfl rfl rfl
        lines := ?_ }
    rw [State.endTransfer_common, latchOutputs_common, h.lines]
    by_cases hle : s.stepCtr ≤ s.cfg.pwmSteps
    · rw [State.commonDue_on (.inl hle), State.commonDue_on]
      · rfl
      · exact .inl hle
    · rw [State.commonDue_off, State.commonDue_off]
      · simp only [State.endTransfer_stepCtr, latchOutputs_stepCtr, State.endTransfer_cfg, latchOutputs_cfg,
          State.endTransfer_xferBusy]
        simp
        omega
      · omega

theorem State.Inv.releaseSwap (h : s.Inv) : (releaseSwap s).Inv := by
  unfold Machine.releaseSwap
  split
  · exact h
  · rename_i hs
    exact h.respond (by simpa [State.swapPending] using hs) _

theorem State.Inv.consumeLine (h : s.Inv) (i : Instr) : (s.consumeLine i).Inv :=
  { h with }

theorem State.Inv.raiseLines (h : s.Inv) (lines : EvLines) : (s.raiseLines lines).Inv :=
  { h with }

theorem State.Inv.deferHandler (h : s.Inv) : s.deferHandler.Inv :=
  { h with }

theorem State.Inv.popTurn (h : s.Inv) : s.popTurn.Inv := by
  unfold State.popTurn
  split
  · exact { h with }
  · exact { h with }

end Sys2Proof.Machine
end

