-- ==== Sys2Proof/Laws/PerInstr.lean ====
section
/-! SUPPORT. One lemma for each operation: its code has the fixed bits of its row (R92, R93). -/

namespace Sys2Proof.Laws.RowMatch

/-- The code of a host command has the match bits of its row under the row's mask (R92), and the code of an event raises
its own line and no other (R93). -/
def Statement (i : Instr) : Prop :=
  match hostRow i with
  | some r => ∃ w, encode i = .host w ∧ r.accepts w = true
  | none => encode i = .event (lineOf i)

theorem nop : Statement .nop := ⟨_, rfl, by decide⟩

theorem fbwr (idx : BitVec 6) (ch : Channel) (val : Level) : Statement (.fbwr idx ch val) := by
  refine ⟨_, rfl, ?_⟩
  have h : ∀ (i : BitVec 6) (c : BitVec 2) (v : BitVec 8),
      (hostWord 0x1 (i ++ c ++ 0#12 ++ v)) &&& 0xF00FFF00#32 = 0x10000000#32 := by
    intro i c v
    unfold hostWord
    ext k hk
    simp only [BitVec.getElem_and, BitVec.getElem_append]
    interval_cases k <;> simp
  simpa [HostRow.accepts] using h idx ch.code val

theorem compile (rot : Bool) : Statement (.compile rot) := by
  cases rot <;> exact ⟨_, rfl, by decide⟩

theorem swapreq : Statement .swapreq := ⟨_, rfl, by decide⟩

theorem schreg (cb : BitVec 4) (period : BitVec 24) : Statement (.schreg cb period) := by
  refine ⟨_, rfl, ?_⟩
  have h : ∀ (c : BitVec 4) (p : BitVec 24), (hostWord 0x4 (c ++ p)) &&& 0xF0000000#32 = 0x40000000#32 := by
    intro c p
    unfold hostWord
    ext k hk
    simp only [BitVec.getElem_and, BitVec.getElem_append]
    interval_cases k <;> simp
  simpa [HostRow.accepts] using h cb period

theorem tickrd : Statement .tickrd := ⟨_, rfl, by decide⟩

theorem schedTick : Statement .schedTick := rfl

theorem scanTick : Statement .scanTick := rfl

theorem xferDone : Statement .xferDone := rfl

theorem cbRet : Statement .cbRet := rfl

end Sys2Proof.Laws.RowMatch
end

