-- ==== Sys2Proof/Tests/Slice0.lean ====
section
/-! SUPPORT. Tests of the model against the spec's own vectors (95_test_vectors.md) and hand-encoded words, and the
witnesses of the obligations' hypotheses. -/

namespace Sys2Proof.Tests

open Sys2Proof.Machine

/-- A configuration with the spec's test instances REFMAP and REFROT (R8, R9). -/
def refConfig (logS : Fin 9) (d nCb : Nat) : Config where
  logS := logS
  d := d
  wire := Vector.ofFn fun k => k.castLE (by decide)
  rot := Vector.ofFn fun i => i + 15
  nCb := nCb
  refresh := 100
  schedHz := 1000
  scanHz := 19800

/-- S = 4, D = 1, N_CB = 8. -/
def small : Config := refConfig 2 1 8

/-- The state after reset with S = 4 and D = 1. -/
def s0 : State := State.resetWith small

/-- The framebuffer of V8. -/
def v8 : Vector Pixel 60 :=
  (((Vector.replicate 60 0).set 0 0xFF0000).set 7 0x8040C8 |>.set 21 0x404040).set 59 0x0000FF

/-- The state a successful outcome holds, and `d` for any other. -/
def nextOr (d : State) (o : Host.Outcome State Fault Refusal) : State :=
  match o with
  | .next s => s
  | .fault _ => d
  | .refused _ => d

/-! Well-formedness: an ill-formed term for each check. -/

theorem test_wf_refuses_index : (Instr.fbwr 60 .red 0).wellFormed = false := by decide
theorem test_wf_refuses_period : (Instr.schreg 1 0).wellFormed = false := by decide
theorem test_wf_accepts_index : (Instr.fbwr 59 .blue 255).wellFormed = true := by decide
theorem test_config_legal : small.Legal := by decide
theorem test_build_refuses_s : Config.build 48 1 8 small.wire small.rot 0 0 0 = none := by decide
theorem test_build_refuses_d : Config.build 4 0 8 small.wire small.rot 0 0 0 = none := by decide
theorem test_build_refuses_wire :
    Config.build 4 1 8 (Vector.replicate 15 3) small.rot 0 0 0 = none := by decide
theorem test_build_refuses_rot :
    Config.build 4 1 8 small.wire (Vector.replicate 60 3) 0 0 0 = none := by decide
theorem test_build_refuses_ncb : Config.build 4 1 0 small.wire small.rot 0 0 0 = none := by decide
theorem test_build_accepts :
    Config.build 4 1 8 small.wire small.rot 100 1000 19800 = some small := by decide

/-! Decoding: the words of V1 and V2. -/

theorem test_decode_nop : decode (.host 0x00000000) = .ok .nop := by decide
theorem test_decode_fbwr : decode (.host 0x11E000C8) = .ok (.fbwr 7 .blue 200) := by decide
theorem test_decode_fbwr_bits :
    decode (.host 0b0001_000111_10_000000000000_11001000) = .ok (.fbwr 7 .blue 200) := by decide
theorem test_decode_fbwr_last : decode (.host 0x1EC00000) = .ok (.fbwr 59 .red 0) := by decide
theorem test_decode_fbwr_green : decode (.host 0x15500040) = .ok (.fbwr 21 .green 64) := by decide
theorem test_decode_compile : decode (.host 0x20000001) = .ok (.compile true) := by decide
theorem test_decode_swapreq : decode (.host 0x30000000) = .ok .swapreq := by decide
theorem test_decode_schreg : decode (.host 0x450003E8) = .ok (.schreg 5 1000) := by decide
theorem test_decode_schreg_max : decode (.host 0x4FFFFFFF) = .ok (.schreg 15 16777215) := by decide
theorem test_decode_tickrd : decode (.host 0x50000000) = .ok .tickrd := by decide
theorem test_decode_sched_tick : decode (.event 0b0001) = .ok .schedTick := by decide
theorem test_decode_scan_tick : decode (.event 0b0010) = .ok .scanTick := by decide
theorem test_decode_xfer_done : decode (.event 0b0100) = .ok .xferDone := by decide
theorem test_decode_cb_ret : decode (.event 0b1000) = .ok .cbRet := by decide
theorem test_decode_order : decode (.event 0b1011) = .ok .scanTick := by decide
theorem test_decode_opcode : decode (.host 0x60000000) = .error .badOpcode := by decide
theorem test_decode_zero_bits : decode (.host 0x20000002) = .error .mustBeZero := by decide
theorem test_decode_zero_field : decode (.host 0x10000100) = .error .mustBeZero := by decide
theorem test_decode_index : decode (.host 0x1F000000) = .error .badIndex := by decide
theorem test_decode_channel : decode (.host 0x10300000) = .error .badChannel := by decide
theorem test_decode_period : decode (.host 0x4A000000) = .error .zeroPeriod := by decide
theorem test_table_word : decodeTableWord 32 0x11C00080 = some (.fbwr 7 .red 128) := by decide
theorem test_table_event : decodeTableWord 8 0x8 = some .cbRet := by decide

/-! The assembler's lines and the pseudo-operations (R102, R103). -/

theorem test_line : (Instr.fbwr 7 .blue 200).line = "FBWR 7, B, 200" ∧ (Instr.schreg 5 1000).line = "SCHREG 5, 1000" := by
  decide
theorem test_pixel_ops : pixelOps 7 128 64 200 = [.fbwr 7 .red 128, .fbwr 7 .green 64, .fbwr 7 .blue 200] := by decide
set_option maxRecDepth 4096 in
theorem test_clear_ops : clearFbOps.length = 180 ∧ frameOps true = [.compile true, .swapreq] := by decide

/-! Operand assembly: V3, V4, V5. -/

theorem test_thr : (refConfig 6 1 8).thr 200 = 50 ∧ (refConfig 0 1 8).thr 255 = 0 := by decide
theorem test_thr_full : (refConfig 8 1 8).thr 255 = 255 := by decide
theorem test_phys : phys 2 3 4 = 59 ∧ phys 1 0 1 = 21 := by decide
theorem test_src : small.src 45 true = 0 ∧ small.src 59 true = 14 ∧ small.src 59 false = 59 := by decide
theorem test_addr : small.addr 1 2 0 3 = 103 ∧ (refConfig 6 1 8).addr 1 2 64 3 = 1559 := by decide

/-! FBWR (V6) and COMPILE (V8). -/

theorem test_fbwr :
    (nextOr s0 (exec (.fbwr 7 .green 64) { s0 with x := s0.x.set 7 0x8000C8 })).x[7] = 0x8040C8 := by decide
theorem test_compile :
    (nextOr s0 (exec (.compile false) { s0 with x := v8 })).table =
      [(60, 0x0001), (61, 0x01C0), (64, 0x0001), (65, 0x0140), (68, 0x0001), (69, 0x0100), (80, 0x0038),
       (103, 0x4000), (107, 0x4000), (111, 0x4000)] := by decide
set_option maxRecDepth 4096 in
theorem test_compile_rot :
    (nextOr s0 (exec (.compile true) { s0 with x := v8, table := [(60, 0x0001), (119, 0x7FFF)] })).table =
      [(61, 0x0038), (100, 0x4000), (101, 0x0001), (102, 0x01C0), (104, 0x4000), (105, 0x0001), (106, 0x0140),
       (108, 0x4000), (109, 0x0001), (110, 0x0100)] := by decide

/-! The host port (V20, V2), the buffer exchange (V19), and the words that wait. -/

/-- A Host that has the next turn and holds one word. -/
def withCommand (s : State) (w : Cmd) : State := { s with agenda := [.host], port := [w] }

theorem test_nop : (nextOr s0 (step (withCommand { s0 with resp := ⟨2, 0⟩ } 0x00000000))).resp = ⟨0, 0⟩ := by decide
theorem test_illegal_word :
    (nextOr s0 (step (withCommand s0 0x60000000))).resp = ⟨1, 0⟩ ∧
    (nextOr s0 (step (withCommand s0 0x60000000))).hostState = .ready := by decide
theorem test_swapreq :
    (nextOr s0 (step (withCommand s0 0x30000000))).writeSlot = 1 ∧
    (nextOr s0 (step (withCommand s0 0x30000000))).hostState = .waitSwap := by decide
theorem test_release :
    (nextOr s0 (step { s0 with writeSlot := 1, readSlot := 1, hostState := .waitSwap, agenda := [.host] })).hostState =
      .ready := by decide
theorem test_word_waits :
    (nextOr s0 (step { withCommand s0 0x50000000 with writeSlot := 1, hostState := .waitSwap })).port = [0x50000000] := by
  decide

/-! The scheduler (V9 to V14). -/

theorem test_schreg :
    (nextOr s0 (exec (.schreg 3 4) { s0 with tick := 5, cblist := [⟨2, 2, 6⟩] })).cblist =
      [⟨3, 4, 9⟩, ⟨2, 2, 6⟩] := by decide
theorem test_schreg_full :
    (nextOr s0 (exec (.schreg 3 1)
      (State.resetWith { small with nCb := 2 } |> fun s => { s with cblist := [⟨2, 1, 1⟩, ⟨1, 1, 1⟩] }))).resp =
      ⟨2, 0⟩ := by decide
theorem test_schreg_held :
    (nextOr s0 (exec (.schreg 2 5) { s0 with tick := 1, cblist := [⟨1, 1, 1⟩], schedState := .wait 0 })).hostState =
      .waitSched 2 5 := by decide
theorem test_schreg_resumed :
    (nextOr s0 (step { s0 with
      tick := 1, cblist := [⟨1, 1, 2⟩], hostState := .waitSched 2 5, agenda := [.host] })).cblist =
      [⟨2, 5, 6⟩, ⟨1, 1, 2⟩] := by decide
theorem test_tickrd : (nextOr s0 (exec .tickrd { s0 with tick := 12 })).resp = ⟨0, 12⟩ := by decide
theorem test_sched_tick :
    (nextOr s0 (exec .schedTick { s0 with tick := 5 })).tick = 6 ∧
    (nextOr s0 (exec .schedTick { s0 with tick := 5 })).schedState = .walk 0 := by decide
theorem test_sched_tick_wraps :
    (nextOr s0 (exec .schedTick { s0 with tick := 0xFFFFFFFFFFFFFFFF })).tick = 0 := by decide
theorem test_sched_tick_lost :
    (nextOr s0 (exec .schedTick { s0 with tick := 1, schedState := .wait 0 })).tick = 1 := by decide
theorem test_walk_due :
    (walkStep { s0 with tick := 6, cblist := [⟨2, 2, 6⟩, ⟨1, 3, 6⟩], schedState := .walk 0 }).trace =
      [.cbInvoke 2] := by decide
theorem test_walk_pass :
    (walkStep { s0 with tick := 6, cblist := [⟨1, 3, 9⟩], schedState := .walk 0 }).schedState = .walk 1 := by decide
theorem test_cb_ret :
    (nextOr s0 (exec .cbRet { s0 with
      tick := 6, cblist := [⟨2, 2, 6⟩, ⟨1, 3, 6⟩], schedState := .wait 0 })).cblist =
      [⟨2, 2, 8⟩, ⟨1, 3, 6⟩] := by decide
theorem test_cb_ret_stray : (nextOr s0 (exec .cbRet { s0 with tick := 6 })).schedState = .idle := by decide

/-! The scan driver (V15, V16, V17, V21). -/

theorem test_scan_issue :
    (nextOr s0 (exec .scanTick { s0 with readSlot := 1, table := [(60, 0x0001), (61, 0x01C0)] })).xferBuf =
      #v[0x0001, 0x01C0, 0x0000, 0x0000] := by decide
theorem test_scan_wrap_swaps :
    (nextOr s0 (exec .scanTick { s0 with groupCtr := 2, stepCtr := 5, writeSlot := 1, common := 0 })).readSlot = 1 ∧
    (nextOr s0 (exec .scanTick { s0 with groupCtr := 2, stepCtr := 5, writeSlot := 1, common := 0 })).common = 0b001 := by
  decide
theorem test_scan_wrap_without_swap :
    (nextOr s0 (exec .scanTick { s0 with stepCtr := 5, writeSlot := 1, common := 0 })).readSlot = 0 ∧
    (nextOr s0 (exec .scanTick { s0 with stepCtr := 5, writeSlot := 1, common := 0 })).common = 0b010 := by decide
theorem test_xfer_done :
    (nextOr s0 (exec .xferDone { s0 with
      stepCtr := 1, xferBusy := true, xferDone := true, sr := #v[0x0001, 0x01C0, 0, 0] })).out =
      #v[0x0001, 0x01C0, 0, 0] ∧
    (nextOr s0 (exec .xferDone { s0 with stepCtr := 4, xferBusy := true, xferDone := true })).common = 0b001 := by
  decide
theorem test_xfer_done_dead_time :
    (nextOr s0 (exec .xferDone { s0 with stepCtr := 5, xferBusy := true, xferDone := true })).common = 0b000 ∧
    (nextOr s0 (exec .xferDone { s0 with stepCtr := 5, xferBusy := true, xferDone := true })).trace =
      [.latch, .common 0b000] := by decide
theorem test_serial_stream :
    (shiftBits 64 { s0 with
      shiftBusy := true, xferBuf := #v[0x0001, 0x01C0, 0x0000, 0x4000] }).trace =
      (List.range 64).map fun n => .sdata (decide (n ∈ [15, 23, 24, 25, 49])) := by decide
theorem test_completion_before_tick :
    (nextOr s0 (step (nextOr s0 (step { s0 with
      stepCtr := 1, xferBusy := true, xferDone := true, ev := ⟨false, true, false⟩ })))).stepCtr = 2 := by decide

/-- The completion signalled before the interface drains is latched with no other raise once it has drained (V16). -/
theorem test_completion_is_held :
    (nextOr s0 (step (nextOr s0 (step (nextOr s0 (step { s0 with
      stepCtr := 1, xferBusy := true, shiftBusy := true, bitsSent := 64, sr := #v[1, 2, 3, 4]
      agenda := [.handOver, .drain] })))))).out = #v[1, 2, 3, 4] := by decide

/-- P4, tick 18: a SCAN_TICK that comes before the handler of a standing XFER_DONE has run is held. -/
theorem test_late_handler :
    let s := nextOr s0 (step (nextOr s0 (step { s0 with
      stepCtr := 1, xferBusy := true, xferDone := true, handlerLate := true, agenda := [.raise 0b0010] })))
    s.stepCtr = 1 ∧ s.lines = 0b0100 := by decide

/-- The other order of R165: with the handler late, a walk step falls between xfer_done, set after the interface drained,
and the handler. -/
theorem test_late_handler_after_drain :
    let s : State := { s0 with
      stepCtr := 1, xferBusy := true, shiftBusy := true, bitsSent := 64, schedState := .walk 0
      agenda := [.defer, .drain, .handOver, .walk, .raise 0b0100] }
    let next := fun s => nextOr s0 (step s)
    let t := next (next (next (next s)))
    t.schedState = .idle ∧ t.xferBusy = true ∧ t.due = 0 ∧ (next (next t)).xferBusy = false := by decide

/-! A placed word is the first operation after reset. -/

theorem test_placed_command :
    (nextOr s0 (step (State.reset.withFetchWord 32 0x11C00080))).x[7] = 0x800000 := by decide
theorem test_placed_event : (nextOr s0 (step (State.reset.withFetchWord 8 0x1))).tick = 1 := by decide

/-! Witnesses: for each obligation with hypotheses, a state and operands that meet them together, clause by clause. -/

/-- Any outcome that is a next state. -/
theorem next_of {o : Host.Outcome State Fault Refusal} {t : State} (h : o = .next t) : ∃ t, o = .next t := ⟨t, h⟩

theorem witness_EncodeThenDecode :
    (Instr.fbwr 59 .green 255).wellFormed = true ∧ (Instr.schreg 15 1).wellFormed = true := by decide
theorem witness_DecodeThenEncode : ∃ i, decode (.host 0x1EE000FF) = .ok i := ⟨_, rfl⟩
theorem witness_StepRunsTheEvent :
    decode (.event ({ s0 with ev := ⟨true, false, true⟩ } : State).due) = .ok .cbRet := by decide
theorem witness_StepRunsTheCommand :
    let s := withCommand s0 0x50000000
    s.due = 0 ∧ s.agenda = .host :: [] ∧ s.hostState = .ready ∧ s.port = 0x50000000 :: [] ∧
      decode (.host 0x50000000) = .ok .tickrd := by decide
theorem witness_PlacedWordRunsNext :
    decode (.host 0x30000000) = .ok .swapreq ∧ decode (.event 0b0110) = .ok .xferDone := by decide
theorem witness_CompletionServedBeforeTick :
    ({ s0 with ev := ⟨false, true, false⟩, xferDone := true, xferBusy := true, stepCtr := 1 } : State).due = 0b0110 ∧
      (0b1111 : EvLines).getLsbD 2 = true ∧ (0b1011 : EvLines).getLsbD 2 = false ∧ (0b1011 : EvLines).getLsbD 1 = true ∧
      (0b1001 : EvLines).getLsbD 2 = false ∧ (0b1001 : EvLines).getLsbD 1 = false ∧
      (0b1001 : EvLines).getLsbD 3 = true := by decide
theorem witness_CompletionLineHeld :
    let s : State := { s0 with xferBusy := true, xferDone := true, stepCtr := 1 }
    s.xferBusy = true ∧ s.xferDone = true ∧ s.shiftBusy = false ∧ s.handlerLate = false ∧ s.lines.getLsbD 2 = true ∧
      ∃ t, step s = .next t ∧ t.lines.getLsbD 2 = false := ⟨rfl, rfl, rfl, rfl, by decide, _, rfl, by decide⟩
theorem witness_CompletionLineHeld_waits :
    ({ s0 with xferBusy := true, xferDone := true, shiftBusy := true } : State).shiftBusy = true ∧
      ({ s0 with xferBusy := true, xferDone := true, handlerLate := true } : State).handlerLate = true := by decide
theorem witness_CompletionLineHeld_defer :
    let s : State := { s0 with xferBusy := true, agenda := [.defer] }
    s.due = 0 ∧ s.agenda = .defer :: [] ∧ s.xferDone = false := by decide
theorem witness_Ready : s0.hostState = .ready ∧ (withCommand s0 0).hostState = .ready := by decide
theorem witness_IllegalWordResult :
    let s := withCommand s0 0x4A000000
    s.due = 0 ∧ s.agenda = .host :: [] ∧ s.hostState = .ready ∧ s.port = 0x4A000000 :: [] ∧
      decode (.host 0x4A000000) = .error .zeroPeriod := by decide
theorem witness_AcceptedWordsMatchTheirRow :
    6 ≤ (0x60000000 : Cmd).toNat / 2 ^ 28 ∧ 6 ≤ (0xFFFFFFFF : Cmd).toNat / 2 ^ 28 := by decide
theorem witness_CommandsWaitWhileBlocked_exec :
    (hostRow .tickrd).isSome = true ∧ ({ s0 with hostState := .waitSwap } : State).hostState ≠ .ready ∧
      ({ s0 with hostState := .waitSched 1 1 } : State).hostState ≠ .ready := by decide
theorem witness_CommandsWaitWhileBlocked_step :
    let s : State := { withCommand s0 0x50000000 with writeSlot := 1, hostState := .waitSwap }
    s.due = 0 ∧ s.agenda = .host :: [] ∧ s.hostState ≠ .ready ∧ ∃ t, step s = .next t :=
  ⟨by decide, by decide, by decide, next_of rfl⟩
theorem witness_FbwrResult :
    s0.hostState = .ready ∧ (0 : BitVec 6).toNat < 60 ∧ (59 : BitVec 6).toNat < 60 := by decide
theorem witness_FbwrResult_illegal :
    s0.hostState = .ready ∧ 60 ≤ (60 : BitVec 6).toNat ∧ 60 ≤ (63 : BitVec 6).toNat := by decide
theorem witness_FbwrResult_illegalWords :
    (0x1F000000 : Cmd).extractLsb' 28 4 = 0x1#4 ∧ 60 ≤ ((0x1F000000 : Cmd).extractLsb' 22 6).toNat ∧
      (0x10300000 : Cmd).extractLsb' 28 4 = 0x1#4 ∧ (0x10300000 : Cmd).extractLsb' 20 2 = 3#2 ∧
      (0x10080000 : Cmd).extractLsb' 28 4 = 0x1#4 ∧ (0x10080000 : Cmd).extractLsb' 8 12 ≠ 0#12 := by decide
theorem witness_CompileResult :
    s0.hostState = .ready ∧ s0.table.wf ∧ 0 < s0.cfg.nStep ∧ 4 < s0.cfg.nStep ∧
      ¬ s0.cfg.inSlot (1 - s0.writeSlot) 59 ∧ ¬ s0.cfg.inSlot (1 - s0.writeSlot) 120 := by decide
theorem witness_WordFunctionBits : s0.cfg.Legal ∧ s0.cfg.pwmSteps ≤ 4 := by decide
theorem witness_WordFunctionBits_unused : s0.cfg.UnusedBit 15 := by
  intro p ch
  cases ch <;> revert p <;> decide
theorem witness_CompileZeroesDeadTime :
    s0.hostState = .ready ∧ s0.table.wf ∧ (∃ t, exec (.compile true) s0 = .next t) ∧ s0.cfg.pwmSteps ≤ 4 ∧
      4 < s0.cfg.nStep :=
  ⟨by decide, by decide, next_of rfl, by decide, by decide⟩
theorem witness_ThresholdPrefix :
    s0.cfg.Legal ∧ 3 < s0.cfg.pwmSteps ∧ (0x40 : Level) ≤ 0xFF ∧ 2 ≤ (refConfig 1 1 8).pwmSteps ∧
      (refConfig 0 1 8).pwmSteps = 1 ∧ (refConfig 8 1 8).pwmSteps = 256 := by decide
theorem witness_CompileRoundTrip :
    s0.cfg.Legal ∧ s0.hostState = .ready ∧ s0.table.wf ∧ ∃ t, exec (.compile true) s0 = .next t :=
  ⟨by decide, by decide, by decide, next_of rfl⟩
theorem witness_CompileAndFbwrIdempotent :
    s0.hostState = .ready ∧ s0.table.wf ∧
      (∃ t u, exec (.compile false) s0 = .next t ∧ exec (.compile false) t = .next u) ∧
      ∃ t u, exec (.fbwr 63 .red 1) s0 = .next t ∧ exec (.fbwr 63 .red 1) t = .next u :=
  ⟨by decide, by decide, ⟨_, _, rfl, rfl⟩, ⟨_, _, rfl, rfl⟩⟩
theorem witness_SwapreqResult : s0.hostState = .ready ∧ s0.writeSlot = s0.readSlot := by decide
theorem witness_SwapreqRelease :
    let s : State := { s0 with hostState := .waitSwap, agenda := [.host] }
    s.due = 0 ∧ s.agenda = .host :: [] ∧ s.hostState = .waitSwap ∧ s.writeSlot = s.readSlot ∧
      ({ s with writeSlot := 1 } : State).writeSlot ≠ s.readSlot := by decide
theorem witness_SchregResult :
    let s : State := { s0 with cblist := List.replicate 7 ⟨1, 1, 1⟩ }
    s.hostState = .ready ∧ s.schedState = .idle ∧ (1 : BitVec 24) ≠ 0 ∧ (0xFFFFFF : BitVec 24) ≠ 0 ∧
      s.cblist.length < s.cfg.nCb := by decide
theorem witness_SchregResult_held :
    let s : State := { s0 with schedState := .walk 0 }
    s.hostState = .ready ∧ s.schedState ≠ .idle ∧ (1 : BitVec 24) ≠ 0 := by decide
theorem witness_SchregResult_waiting :
    let s : State := { s0 with hostState := .waitSched 2 5, agenda := [.host], schedState := .wait 0 }
    s.due = 0 ∧ s.agenda = .host :: [] ∧ s.hostState = .waitSched 2 5 ∧ s.schedState ≠ .idle := by decide
theorem witness_SchregResult_resumed :
    let s : State := { s0 with hostState := .waitSched 2 5, agenda := [.host] }
    s.due = 0 ∧ s.agenda = .host :: [] ∧ s.hostState = .waitSched 2 5 ∧ s.schedState = .idle ∧
      (5 : BitVec 24) ≠ 0 := by decide
theorem witness_SchregOnFullList :
    let s : State := { s0 with cblist := List.replicate 8 ⟨1, 1, 1⟩ }
    s.hostState = .ready ∧ s.schedState = .idle ∧ (1 : BitVec 24) ≠ 0 ∧ s.cblist.length = s.cfg.nCb := by decide
theorem witness_SchregOnFullList_held :
    let s : State := { s0 with
      cblist := List.replicate 8 ⟨1, 1, 1⟩, hostState := .waitSched 2 5, agenda := [.host] }
    s.due = 0 ∧ s.agenda = .host :: [] ∧ s.hostState = .waitSched 2 5 ∧ s.schedState = .idle ∧
      s.cblist.length = s.cfg.nCb := by decide
theorem witness_SchedTickResult :
    ({ s0 with tick := 0xFFFFFFFFFFFFFFFF } : State).schedState = .idle := by decide
theorem witness_SchedTickResult_walking :
    ({ s0 with schedState := .walk 0 } : State).schedState ≠ .idle ∧
      ({ s0 with schedState := .wait 0 } : State).schedState ≠ .idle := by decide
theorem witness_SchedTickLostDuringWalk :
    let s : State := { s0 with schedState := .wait 0, cblist := [⟨1, 1, 1⟩], ev := ⟨true, false, false⟩ }
    s.schedState ≠ .idle ∧ s.due = 0b0001 := by decide
theorem witness_WalkStepResult :
    let s : State := { s0 with
      tick := 6, cblist := [⟨2, 2, 6⟩, ⟨1, 3, 7⟩], schedState := .walk 2, agenda := [.walk] }
    s.due = 0 ∧ s.agenda = .walk :: [] ∧ s.schedState = .walk 2 ∧ s.cblist.length ≤ 2 := by decide
theorem witness_WalkStepResult_due :
    let s : State := { s0 with tick := 6, cblist := [⟨2, 2, 6⟩], schedState := .walk 0, agenda := [.walk] }
    s.due = 0 ∧ s.agenda = .walk :: [] ∧ s.schedState = .walk 0 ∧
      ∃ h : 0 < s.cblist.length, s.cblist[0].nextFire.toNat ≤ s.tick.toNat := by decide
theorem witness_WalkStepResult_notDue :
    let s : State := { s0 with tick := 6, cblist := [⟨2, 2, 7⟩], schedState := .walk 0, agenda := [.walk] }
    s.due = 0 ∧ s.agenda = .walk :: [] ∧ s.schedState = .walk 0 ∧
      ∃ h : 0 < s.cblist.length, s.tick.toNat < s.cblist[0].nextFire.toNat := by decide
theorem witness_CbRetResult : ({ s0 with schedState := .wait 0 } : State).schedState = .wait 0 := by decide
theorem witness_CbRetResult_stray : ∀ i, ({ s0 with schedState := .walk 0 } : State).schedState ≠ .wait i := by
  intro i h
  cases h
theorem witness_CallbackDriftBound :
    let s : State := { s0 with tick := 5, cblist := [⟨3, 4, 9⟩, ⟨2, 2, 6⟩] }
    s.schedState = .idle ∧ (∀ r ∈ s.cblist, r.period ≠ 0 ∧ s.tick < r.nextFire) ∧
      s.tick.toNat + 7 + 2 ^ 24 < 2 ^ 64 := by decide
theorem witness_CallbackDriftBound_firings :
    let r : CallbackRecord := ⟨2, 2, 7⟩
    0 < r.period.toNat ∧ r.nextFire.toNat = 5 + r.period.toNat := by decide
theorem witness_ScanTickHold :
    let s : State := { s0 with xferBusy := true, stepCtr := 5, ev := ⟨false, true, false⟩ }
    s.xferBusy = true ∧ s.due = 0b0010 := by decide
theorem witness_ScanTickWrap :
    let s : State := { s0 with groupCtr := 2, stepCtr := 5, writeSlot := 1, common := 0 }
    s.xferBusy = false ∧ s.stepCtr = s.cfg.pwmSteps + s.cfg.d := by decide
theorem witness_ScanTickIssue :
    let s : State := { s0 with stepCtr := 4 }
    s.xferBusy = false ∧ s.stepCtr < s.cfg.pwmSteps + s.cfg.d := by decide
theorem witness_SerialStream :
    let s : State := { s0 with shiftBusy := true, xferBusy := true, xferBuf := #v[1, 2, 3, 4] }
    s.shiftBusy = true ∧ s.bitsSent ≤ 64 ∧ s.bitsSent = 0 ∧ 64 ≤ [17, 0, 46, 1].sum ∧ 64 ≤ [64].sum := by decide
theorem witness_SerialStream_idle :
    s0.shiftBusy = false ∧ 64 ≤ ({ s0 with shiftBusy := true, bitsSent := 64 } : State).bitsSent := by decide
theorem witness_ShifterFinishesInEitherOrder :
    let s : State := { s0 with shiftBusy := true, xferBusy := true, bitsSent := 64 }
    s.xferBusy = true ∧ s.shiftBusy = true ∧ s.bitsSent = 64 := by decide
theorem witness_XferDoneResult :
    let s : State := { s0 with xferBusy := true, xferDone := true, stepCtr := 5 }
    s.xferDone = true ∧ s.shiftBusy = false ∧ s.stepCtr = s.cfg.pwmSteps + 1 := by decide
theorem witness_XferDoneResult_waits :
    s0.xferDone = false ∧ ({ s0 with xferBusy := true, xferDone := true, shiftBusy := true } : State).shiftBusy = true := by
  decide
theorem witness_StalledTransferHangs :
    let s : State := { s0 with xferBusy := true, xferDone := true, shiftBusy := true }
    s.xferBusy = true ∧ (s.shiftBusy = true ∨ s.xferDone = false) := by decide
theorem witness_ScanPositionAfterTicks :
    s0.xferBusy = false ∧ s0.xferDone = false ∧ s0.shiftBusy = false ∧ s0.stepCtr = 0 := by decide
theorem witness_SwapWithinOneCycle :
    let s : State := { s0 with writeSlot := 1, groupCtr := 2, stepCtr := 5, common := 0 }
    s.xferBusy = false ∧ s.xferDone = false ∧ s.shiftBusy = false ∧ s.stepCtr ≤ s.cfg.pwmSteps + s.cfg.d ∧
      s.writeSlot ≠ s.readSlot := by decide

/-! Witnesses of the rules about the whole block. -/

theorem witness_InvariantAtReset : small.Legal := by decide

/-- The reset state of a legal configuration, with any turns to come. -/
theorem s0_inv (agenda : List Turn) : ({ s0 with agenda := agenda } : State).Inv :=
  { State.resetWith_inv_of_legal test_config_legal with }

theorem witness_StepKeepsInvariant :
    let s : State := { s0 with agenda := [.raise 0b0010] }
    s.Inv ∧ ∃ t, step s = .next t := ⟨s0_inv _, next_of rfl⟩

theorem witness_StepNeverStops : ({ s0 with agenda := [.host] } : State).Inv := s0_inv _

/-- A state with an LED driven: the words of step 0 of group 0 are on the outputs and one bit of them is set. -/
def lit : State := { s0 with table := [(0, 0x0001)], out := #v[0x0001, 0, 0, 0], stepCtr := 1 }

theorem lit_table : TableOk small [(0, 0x0001)] where
  wf := by decide
  inside := by decide
  deadTime := by
    intro slot g step q h h'
    have h0 : small.addr slot g step q ≠ 0 := by
      have hs : 4 ≤ step := h
      unfold Config.addr
      omega
    simp [Memory.read, h0]
  unused := by
    intro a b hb
    have h0 : b ≠ 0 := fun e => hb 0 .red (by rw [e]; decide)
    have h1 : ∀ b : Fin 16, b ≠ 0 → (0x0001 : Word).getLsbD b.val = false := by decide
    unfold Memory.read
    split
    · exact h1 b h0
    · simp

theorem lit_inv : lit.Inv :=
  { State.resetWith_inv_of_legal test_config_legal with
    table := lit_table
    position := by decide
    inFlight := fun h => absurd h (by decide)
    shifted := fun h => absurd h (by decide)
    fetched := fun h => absurd h (by decide)
    outputs := by decide
    lines := by decide }

theorem witness_CommonLinesNeverOverlap : lit.Inv ∧ lit.common.getLsbD (0 : Group).val = true :=
  ⟨lit_inv, by decide⟩
theorem witness_LedsDrivenByOwnWords : lit.Inv ∧ lit.ledDriven 0 0 0 .red = true := ⟨lit_inv, by decide⟩
theorem witness_StepKeepsTableCanonical :
    let s := withCommand s0 0x20000000
    s.table.wf ∧ ∃ t, step s = .next t := ⟨by decide, next_of rfl⟩
theorem witness_NoSwapPendingOutsideWait :
    let s := withCommand s0 0x30000000
    (s.hostState ≠ .waitSwap → s.writeSlot = s.readSlot) ∧ (∃ t, step s = .next t) ∧
      (nextOr s0 (step { s with hostState := .waitSwap, writeSlot := 1, readSlot := 1 })).hostState ≠ .waitSwap :=
  ⟨by decide, next_of rfl, by decide⟩
theorem witness_ReadSlotNeverWritten :
    let s := withCommand { s0 with table := [(0, 1), (59, 2)] } 0x20000001
    s.table.wf ∧ (s.hostState ≠ .waitSwap → s.writeSlot = s.readSlot) ∧ (∃ t, step s = .next t) ∧
      s.cfg.inSlot s.readSlot 0 ∧ s.cfg.inSlot s.readSlot 59 :=
  ⟨by decide, by decide, next_of rfl, by decide, by decide⟩
theorem witness_SwapOnlyAtCycleEnd :
    let s : State := { s0 with
      ev := ⟨false, true, false⟩, groupCtr := 2, stepCtr := 5, writeSlot := 1, hostState := .waitSwap, common := 0 }
    ∃ t, step s = .next t ∧ t.readSlot ≠ s.readSlot := ⟨_, rfl, by decide⟩
theorem witness_TickWrittenBySchedTickOnly :
    let s : State := { s0 with ev := ⟨true, false, false⟩ }
    ∃ t, step s = .next t ∧ t.tick ≠ s.tick := ⟨_, rfl, by decide⟩
theorem witness_ConfigurationNeverWritten : ∃ t, step (withCommand s0 0x11C00080) = .next t := next_of rfl
theorem witness_OneWriterForEachElement :
    (hostRow (.compile false)).isSome = true ∧ (∃ t, exec (.compile false) s0 = .next t) ∧ s0.table.wf ∧
      ¬ s0.cfg.inSlot (1 - s0.writeSlot) 59 ∧
      (∃ t, exec .cbRet { s0 with cblist := [⟨1, 1, 1⟩], schedState := .wait 0 } = .next t) ∧
      (∃ t, exec .scanTick s0 = .next t) ∧ ∃ t, exec .xferDone { s0 with xferBusy := true, xferDone := true } = .next t :=
  ⟨by decide, next_of rfl, by decide, by decide, next_of rfl, next_of rfl, next_of rfl⟩
theorem witness_OutputsOnlyGrow :
    let s : State := { s0 with agenda := [.raise 0b0010] }
    (∃ t, step s = .next t) ∧ s.Inv := ⟨next_of rfl, s0_inv _⟩
theorem witness_ResponseStatusLegal :
    let s := withCommand { s0 with resp := ⟨0, 12⟩ } 0x50000000
    (s.resp.status ≠ 3 ∧ (s.resp.data ≠ 0 → s.resp.status = 0)) ∧ ∃ t, step s = .next t :=
  ⟨by decide, next_of rfl⟩
theorem witness_TableAddressesOneToOne :
    4 < small.nStep ∧ small.addr 1 2 4 3 = 119 ∧ 119 < 24 * (small.pwmSteps + small.d) := by decide
theorem witness_IllegalConfigurationRefused :
    ∃ c, Config.build 4 1 8 small.wire small.rot 100 1000 19800 = some c := ⟨_, test_build_accepts⟩

end Sys2Proof.Tests
end

section
/-! The state after reset (R37): one lemma for each storage element that holds more than one word, then the whole
table. -/

namespace Sys2Proof.Machine

variable (c : Config)

@[simp] theorem State.resetWith_x_getElem (i : Fin 60) : (State.resetWith c).x[i.val] = 0x000000 :=
  Vector.getElem_replicate i.isLt

@[simp] theorem State.resetWith_table_read (a : Nat) : (State.resetWith c).table.read a = 0x0000 :=
  Memory.read_nil a

@[simp] theorem State.resetWith_xferBuf_getElem (q : Quadrant) : (State.resetWith c).xferBuf[q.val] = 0x0000 :=
  Vector.getElem_replicate q.isLt

@[simp] theorem State.resetWith_sr_getElem (q : Quadrant) : (State.resetWith c).sr[q.val] = 0x0000 :=
  Vector.getElem_replicate q.isLt

@[simp] theorem State.resetWith_out_getElem (q : Quadrant) : (State.resetWith c).out[q.val] = 0x0000 :=
  Vector.getElem_replicate q.isLt

end Sys2Proof.Machine
end

section
namespace Sys2Proof.Machine

/-- Settles O41: the arrays by the lemmas about their words, every other element by the definition of the reset
state. -/
theorem resetValues : Obligations.ResetValues := by
  intro c
  have words (q : Quadrant) : (State.resetWith c).xferBuf[q.val] = 0x0000 ∧
      (State.resetWith c).sr[q.val] = 0x0000 ∧ (State.resetWith c).out[q.val] = 0x0000 :=
    ⟨State.resetWith_xferBuf_getElem c q, State.resetWith_sr_getElem c q, State.resetWith_out_getElem c q⟩
  exact ⟨State.resetWith_x_getElem c, State.resetWith_table_read c, rfl, rfl, rfl, rfl, rfl, rfl, rfl, rfl, rfl, words,
    rfl, rfl, rfl, rfl⟩

end Sys2Proof.Machine
end

section
/-! TABLE is its two slots and nothing else (R61, R64), so every word of it has an address (R62). -/

namespace Sys2Proof

theorem Config.exists_inSlot_of_lt_tableWords {c : Config} {a : Nat} (ha : a < c.tableWords) :
    ∃ slot : Slot, c.inSlot slot a := by
  unfold Config.tableWords at ha
  rcases Nat.lt_or_ge a (12 * c.nStep) with low | high
  · refine ⟨0, ?_⟩
    simpa [Config.inSlot] using low
  · refine ⟨1, ?_⟩
    have one : (1 : Slot).toNat = 1 := rfl
    rw [Config.inSlot, one]
    omega

theorem Config.exists_addr_of_lt_tableWords {c : Config} {a : Nat} (ha : a < c.tableWords) :
    ∃ (slot : Slot) (g : Group) (s : Nat) (q : Quadrant), s < c.nStep ∧ c.addr slot g s q = a := by
  obtain ⟨slot, hslot⟩ := Config.exists_inSlot_of_lt_tableWords ha
  exact ⟨slot, Config.exists_cell hslot⟩

end Sys2Proof
end

section
namespace Sys2Proof.Machine

/-- Settles O57: the formula is the definition of the address; its range and injectivity are laws of the address, and
it is onto because every word of TABLE is in a slot. -/
theorem tableAddressesOneToOne : Obligations.TableAddressesOneToOne := fun c =>
  ⟨fun slot g _ q hs => ⟨rfl, c.addr_lt slot g hs q⟩,
    fun _ _ _ _ _ _ _ _ hs hs' => Config.addr_inj hs hs',
    fun _ ha => Config.exists_addr_of_lt_tableWords ha⟩

end Sys2Proof.Machine
end

section
/-! The words of the H format as opc and arg (R91), what the decoder answers for each of them (R92), and R92's match and
mask as conditions on the fields of a word. -/

namespace Sys2Proof

theorem hostWord_opcOf_argOf (w : Cmd) : hostWord (opcOf w) (argOf w) = w :=
  calc
    opcOf w ++ argOf w = w.extractLsb' 0 32 := BitVec.extractLsb'_append_extractLsb'_eq_extractLsb' rfl
    _ = w := BitVec.extractLsb'_eq_self

@[simp] theorem opcOf_hostWord (k : BitVec 4) (a : BitVec 28) : opcOf (hostWord k a) = k :=
  BitVec.extractLsb'_append_eq_left

@[simp] theorem argOf_hostWord (k : BitVec 4) (a : BitVec 28) : argOf (hostWord k a) = a :=
  BitVec.extractLsb'_append_eq_right

theorem hostWord_eq_hostWord_iff {k k' : BitVec 4} {a a' : BitVec 28} :
    hostWord k a = hostWord k' a' ↔ k = k' ∧ a = a' := by
  constructor
  · intro h
    exact ⟨by simpa using congrArg opcOf h, by simpa using congrArg argOf h⟩
  · rintro ⟨rfl, rfl⟩
    rfl

/-- Bits `lo` to `lo + n - 1` of arg. -/
def fieldMask (lo n : Nat) : BitVec 28 := (BitVec.allOnes n).setWidth 28 <<< lo

theorem argOf_and_fieldMask_eq_zero_iff (w : Cmd) {lo n : Nat} (h : lo + n ≤ 28) :
    argOf w &&& fieldMask lo n = 0#28 ↔ w.extractLsb' lo n = 0#n := by
  have bit (i : Nat) : (argOf w &&& fieldMask lo n).getLsbD i = (decide (lo ≤ i ∧ i < lo + n) && w.getLsbD i) := by
    simp only [argOf, fieldMask, BitVec.getLsbD_and, BitVec.getLsbD_extractLsb', BitVec.getLsbD_shiftLeft,
      BitVec.getLsbD_setWidth, BitVec.getLsbD_allOnes]
    grind
  simp only [BitVec.eq_of_getLsbD_eq_iff, bit, BitVec.getLsbD_extractLsb', BitVec.getLsbD_zero]
  constructor
  · intro hz i hi
    simpa [hi] using hz (lo + i) (by omega)
  · intro hz i _
    by_cases hlo : lo ≤ i ∧ i < lo + n
    · obtain ⟨j, rfl⟩ := Nat.exists_eq_add_of_le hlo.1
      have hj : j < n := by omega
      simpa [hj] using hz j hj
    · simp [hlo]

/-- Match and mask of a row of R92 whose fixed bits are opc and one field of zeros. -/
theorem and_mask_eq_match_iff (w : Cmd) (k : BitVec 4) {lo n : Nat} (h : lo + n ≤ 28) :
    w &&& hostWord 0xF#4 (fieldMask lo n) = hostWord k 0#28 ↔ opcOf w = k ∧ w.extractLsb' lo n = 0#n := by
  have fields : w &&& hostWord 0xF#4 (fieldMask lo n) = hostWord (opcOf w) (argOf w &&& fieldMask lo n) := by
    conv_lhs => rw [← hostWord_opcOf_argOf w]
    calc
      _ = hostWord (opcOf w &&& 0xF#4) (argOf w &&& fieldMask lo n) := BitVec.and_append
      _ = _ := congrArg (hostWord · _) BitVec.and_allOnes
  rw [fields, hostWord_eq_hostWord_iff, argOf_and_fieldMask_eq_zero_iff w h]

theorem channelOf_eq_some_iff {b : BitVec 2} {ch : Channel} : channelOf b = some ch ↔ b = ch.code := by
  revert b
  cases ch <;> decide

/-- The fields of `w` are those of an operation: its opc, its zero field, its operands and their conditions (R92). An
event is no command word's. -/
def Instr.FieldsOf (w : Cmd) : Instr → Prop
  | .nop => opcOf w = 0x0#4 ∧ argOf w = 0#28
  | .fbwr idx ch val => (opcOf w = 0x1#4 ∧ w.extractLsb' 8 12 = 0#12) ∧
      w.extractLsb' 22 6 = idx ∧ idx ≤ 59#6 ∧ w.extractLsb' 20 2 = ch.code ∧ w.extractLsb' 0 8 = val
  | .compile rot => (opcOf w = 0x2#4 ∧ w.extractLsb' 1 27 = 0#27) ∧ w.getLsbD 0 = rot
  | .swapreq => opcOf w = 0x3#4 ∧ argOf w = 0#28
  | .schreg cb period => opcOf w = 0x4#4 ∧
      w.extractLsb' 24 4 = cb ∧ w.extractLsb' 0 24 = period ∧ period ≠ 0#24
  | .tickrd => opcOf w = 0x5#4 ∧ argOf w = 0#28
  | .schedTick | .scanTick | .xferDone | .cbRet => False

theorem decodePlain_eq_ok_iff {w : Cmd} {i j : Instr} : decodePlain w i = .ok j ↔ argOf w = 0#28 ∧ i = j := by
  unfold decodePlain
  split <;> simp [*]

theorem decodeFbwr_eq_ok_iff {w : Cmd} {j : Instr} :
    decodeFbwr w = .ok j ↔ w.extractLsb' 8 12 = 0#12 ∧ w.extractLsb' 22 6 ≤ 59#6 ∧
      ∃ ch : Channel, w.extractLsb' 20 2 = ch.code ∧ .fbwr (w.extractLsb' 22 6) ch (w.extractLsb' 0 8) = j := by
  unfold decodeFbwr
  split
  · simp [*]
  · split
    · simp [*]
    · simp only [← channelOf_eq_some_iff]
      split <;> simp_all

theorem decodeSchreg_eq_ok_iff {w : Cmd} {j : Instr} :
    decodeSchreg w = .ok j ↔ w.extractLsb' 0 24 ≠ 0#24 ∧ .schreg (w.extractLsb' 24 4) (w.extractLsb' 0 24) = j := by
  unfold decodeSchreg
  split <;> simp [*]

/-- What the decoder accepts, whole: a word is an operation exactly where it has the operation's fields. -/
theorem decode_host_eq_ok_iff {w : Cmd} {i : Instr} : decode (.host w) = .ok i ↔ i.FieldsOf w := by
  constructor
  · intro h
    simp only [decode, decodeHost] at h
    split at h
    · obtain ⟨ha, rfl⟩ := decodePlain_eq_ok_iff.mp h
      exact ⟨by assumption, ha⟩
    split at h
    · obtain ⟨hz, hidx, ch, hch, rfl⟩ := decodeFbwr_eq_ok_iff.mp h
      exact ⟨⟨by assumption, hz⟩, rfl, hidx, hch, rfl⟩
    split at h
    · split at h
      · cases h
        exact ⟨⟨by assumption, by assumption⟩, rfl⟩
      · cases h
    split at h
    · obtain ⟨ha, rfl⟩ := decodePlain_eq_ok_iff.mp h
      exact ⟨by assumption, ha⟩
    split at h
    · obtain ⟨hp, rfl⟩ := decodeSchreg_eq_ok_iff.mp h
      exact ⟨by assumption, rfl, rfl, hp⟩
    split at h
    · obtain ⟨ha, rfl⟩ := decodePlain_eq_ok_iff.mp h
      exact ⟨by assumption, ha⟩
    · cases h
  · intro h
    cases i with
    | nop | swapreq | tickrd =>
      obtain ⟨hk, ha⟩ := h
      simp [decode, decodeHost, decodePlain, hk, ha]
    | fbwr idx ch val =>
      obtain ⟨⟨hk, hz⟩, rfl, hidx, hch, rfl⟩ := h
      simpa [decode, decodeHost, hk] using decodeFbwr_eq_ok_iff.mpr ⟨hz, hidx, ch, hch, rfl⟩
    | compile rot =>
      obtain ⟨⟨hk, hz⟩, rfl⟩ := h
      simp [decode, decodeHost, hk, hz]
    | schreg cb period =>
      obtain ⟨hk, rfl, rfl, hp⟩ := h
      simpa [decode, decodeHost, hk] using decodeSchreg_eq_ok_iff.mpr ⟨hp, rfl⟩
    | schedTick | scanTick | xferDone | cbRet => exact h.elim

theorem opcOf_toNat (w : Cmd) : (opcOf w).toNat = w.toNat / 2 ^ 28 := by
  have := w.isLt
  rw [opcOf, BitVec.extractLsb'_toNat, Nat.shiftRight_eq_div_pow]
  omega

/-- The opcodes 0x6 to 0xF are reserved (R92, R100). -/
theorem decode_host_of_six_le_opcOf {w : Cmd} (h : 6 ≤ (opcOf w).toNat) :
    decode (.host w) = .error .badOpcode := by
  have ne (k : BitVec 4) (hk : k.toNat < 6) : opcOf w ≠ k := by
    rintro rfl
    omega
  simp [decode, decodeHost, ne]

end Sys2Proof
end

section
namespace Sys2Proof.Machine

/-- Settles O4: each row's match and mask are its opc and its zero field, and with its operands those are the fields
that the decoder asks of the word. -/
theorem acceptedWordsMatchTheirRow : Obligations.AcceptedWordsMatchTheirRow := by
  intro w
  have row (k : BitVec 4) {lo n : Nat} (h : lo + n ≤ 28) := (and_mask_eq_match_iff w k h).symm
  refine ⟨decode_host_eq_ok_iff.trans (row 0x0#4 (lo := 0) (n := 28) le_rfl), fun idx ch val => ?_, fun rot => ?_,
    decode_host_eq_ok_iff.trans (row 0x3#4 (lo := 0) (n := 28) le_rfl), fun cb period => ?_,
    decode_host_eq_ok_iff.trans (row 0x5#4 (lo := 0) (n := 28) le_rfl), fun h => ?_⟩
  · exact decode_host_eq_ok_iff.trans (and_congr_left' (row 0x1#4 (lo := 8) (n := 12) (by decide)))
  · exact decode_host_eq_ok_iff.trans (and_congr_left' (row 0x2#4 (lo := 1) (n := 27) (by decide)))
  · have noZeros : opcOf w = 0x4#4 ∧ w.extractLsb' 0 0 = 0#0 ↔ opcOf w = 0x4#4 :=
      and_iff_left (BitVec.of_length_zero.trans BitVec.of_length_zero.symm)
    exact decode_host_eq_ok_iff.trans
      (and_congr_left' (noZeros.symm.trans (row 0x4#4 (lo := 0) (n := 0) (by decide))))
  · exact ⟨.badOpcode, decode_host_of_six_le_opcOf (by rwa [opcOf_toNat])⟩

end Sys2Proof.Machine
end

section
/-! Laws of operand assembly beside those of the model: the threshold's bound (R95), the digits of the physical index
(R96), the source index (R97), and when a channel is on. -/

namespace Sys2Proof

@[simp] theorem phys_val (g : Group) (q : Quadrant) (p : Position) :
    (phys g q p).val = 20 * g.val + 5 * q.val + p.val := rfl

theorem exists_phys_eq (i : Fin 60) : ∃ (g : Group) (q : Quadrant) (p : Position), phys g q p = i :=
  ⟨⟨i / 20, by omega⟩, ⟨i % 20 / 5, by omega⟩, ⟨i % 5, by omega⟩, Fin.ext (by simp; omega)⟩

@[simp] theorem Config.src_true (c : Config) (i : Fin 60) : c.src i true = c.rot[i.val] := rfl

@[simp] theorem Config.src_false (c : Config) (i : Fin 60) : c.src i false = i := rfl

theorem Config.thr_le_pred_pwmSteps (c : Config) (v : Level) : c.thr v ≤ c.pwmSteps - 1 :=
  Nat.le_pred_of_lt (c.thr_lt v)

end Sys2Proof

namespace Sys2Proof.Machine

theorem State.channelOn_eq_true_iff (s : State) (g : Group) (step : Nat) (q : Quadrant) (rot : Bool) (p : Position)
    (ch : Channel) : s.channelOn g step q rot p ch = true ↔
      step < s.cfg.thr (channelOfPixel s.x[(s.cfg.src (phys g q p) rot).val] ch) :=
  decide_eq_true_iff

/-- Settles O12: the threshold by the laws of its division, the index functions by the digits of the physical index. -/
theorem operandAssembly : Obligations.OperandAssembly := by
  refine ⟨fun c v => ⟨rfl, c.thr_eq_div v, c.thr_le_pred_pwmSteps v⟩, State.channelOn_eq_true_iff, fun g q p => ?_,
    exists_phys_eq, fun c i => ⟨c.src_true i, c.src_false i⟩⟩
  rw [phys_val]
  omega

end Sys2Proof.Machine
end

section
/-! The scheduler's operations and turns, branch by branch (R120 to R123), and what R120 and R123 add to a tick. -/

namespace Sys2Proof.Machine

variable {s : State} {i : Nat}

/-- SCHREG's word is its opc and its operands, in this order (R92). -/
theorem decode_schreg (cb : BitVec 4) {period : BitVec 24} (hp : period ≠ 0) :
    decode (.host (0x4#4 ++ cb ++ period)) = .ok (.schreg cb period) := by
  refine decode_host_eq_ok_iff.mpr ⟨?opc, ?cb, BitVec.extractLsb'_append_eq_right, hp⟩
  case opc =>
    rw [opcOf, BitVec.extractLsb'_append_eq_of_le (by decide)]
    exact BitVec.extractLsb'_append_eq_left
  case cb =>
    rw [BitVec.extractLsb'_append_eq_of_le (by decide)]
    exact BitVec.extractLsb'_append_eq_right

/-- The sums of R120 and R123 are modulo 2^64 (R12, R99). -/
theorem add_widenPeriod (tick : BitVec 64) (period : BitVec 24) :
    tick + widenPeriod period = BitVec.ofNat 64 (tick.toNat + period.toNat) := by
  apply BitVec.eq_of_toNat_eq
  simp [widenPeriod]

theorem CallbackRecord.advance_eq (r : CallbackRecord) :
    r.advance = ⟨r.cb, r.period, BitVec.ofNat 64 (r.nextFire.toNat + r.period.toNat)⟩ := by
  rw [CallbackRecord.advance, add_widenPeriod]

/-- A command that ends in Ready leaves the Host there. -/
theorem State.respond_of_ready (h : s.hostState = .ready) (r : Resp) :
    s.respond r = { s with resp := r, trace := s.trace ++ [.done r] } := by
  rw [State.respond, ← h]

theorem registerCallback_of_full (h : s.cblist.length = s.cfg.nCb) (cb : BitVec 4) (period : BitVec 24) :
    registerCallback cb period s = s.respond ⟨2, 0⟩ :=
  ((registerCallback_cases cb period s).resolve_right (·.1 h)).2

theorem registerCallback_of_room (h : s.cblist.length < s.cfg.nCb) (cb : BitVec 4) (period : BitVec 24) :
    registerCallback cb period s =
      { s with cblist := ⟨cb, period, s.tick + widenPeriod period⟩ :: s.cblist }.respond ⟨0, 0⟩ :=
  ((registerCallback_cases cb period s).resolve_left (h.ne ·.1)).2

/-- The end of SCHREG makes the Host Ready, whether the command was held or not. -/
theorem registerCallback_hostState (cb : BitVec 4) (period : BitVec 24) (s : State) (h : HostState) :
    registerCallback cb period { s with hostState := h } = registerCallback cb period s :=
  rfl

theorem execSchreg_zero (h : s.hostState = .ready) (cb : BitVec 4) :
    execSchreg cb 0 s = .next (s.respond ⟨1, 0⟩) := by
  rw [execSchreg, accept_ready h, if_pos rfl]
  rfl

theorem execSchreg_of_idle (h : s.hostState = .ready) (hi : s.schedState = .idle) {period : BitVec 24}
    (hp : period ≠ 0) (cb : BitVec 4) : execSchreg cb period s = .next (registerCallback cb period s) := by
  rw [execSchreg, accept_ready h, if_neg hp, hi]

theorem execSchreg_of_not_idle (h : s.hostState = .ready) (hi : s.schedState ≠ .idle) {period : BitVec 24}
    (hp : period ≠ 0) (cb : BitVec 4) :
    execSchreg cb period s = .next { s with hostState := .waitSched cb period } := by
  rw [execSchreg, accept_ready h, if_neg hp]
  cases hs : s.schedState with
  | idle => exact absurd hs hi
  | walk | wait => rfl

theorem resumeSchreg_of_idle (hi : s.schedState = .idle) (cb : BitVec 4) (period : BitVec 24) :
    resumeSchreg cb period s = registerCallback cb period s :=
  ((resumeSchreg_cases cb period s).resolve_right (·.1 hi)).2

theorem resumeSchreg_of_not_idle (hi : s.schedState ≠ .idle) (cb : BitVec 4) (period : BitVec 24) :
    resumeSchreg cb period s = s :=
  ((resumeSchreg_cases cb period s).resolve_left (hi ·.1)).2

theorem execSchedTick_of_idle (hi : s.schedState = .idle) :
    execSchedTick s = .next { s with tick := s.tick + 1, schedState := .walk 0 } := by
  rw [execSchedTick, hi]

theorem execSchedTick_of_not_idle (hi : s.schedState ≠ .idle) : execSchedTick s = .next s := by
  rw [execSchedTick]
  cases hs : s.schedState with
  | idle => exact absurd hs hi
  | walk | wait => rfl

theorem walkStep_of_length_le (hi : s.schedState = .walk i) (h : s.cblist.length ≤ i) :
    walkStep s = { s with schedState := .idle } := by
  rw [walkStep, hi]
  simp only [List.getElem?_eq_none h]

theorem walkStep_of_le (hi : s.schedState = .walk i) (h : i < s.cblist.length)
    (due : s.cblist[i].nextFire ≤ s.tick) :
    walkStep s = { s with schedState := .wait i, trace := s.trace ++ [.cbInvoke s.cblist[i].cb] } := by
  rw [walkStep, hi]
  simp only [List.getElem?_eq_getElem h, if_pos due]
  rfl

theorem walkStep_of_lt (hi : s.schedState = .walk i) (h : i < s.cblist.length)
    (notDue : s.tick < s.cblist[i].nextFire) : walkStep s = { s with schedState := .walk (i + 1) } := by
  rw [walkStep, hi]
  simp only [List.getElem?_eq_getElem h, if_neg (BitVec.not_le.mpr notDue)]

theorem execCbRet_of_wait (hi : s.schedState = .wait i) :
    execCbRet s = .next
      { s with cblist := s.cblist.modify i CallbackRecord.advance, schedState := .walk (i + 1) } := by
  rw [execCbRet, hi]

theorem execCbRet_of_not_wait (hi : ∀ i, s.schedState ≠ .wait i) : execCbRet s = .next s := by
  rw [execCbRet]
  cases hs : s.schedState with
  | idle | walk => rfl
  | wait i => exact absurd hs (hi i)

/-- A step with an event to serve is the event's operation. -/
theorem step_event {i : Instr} (h : decode (.event s.due) = .ok i) : step s = exec i (s.consumeLine i) := by
  rw [step, runStep, h]

section HeldSchreg

variable {cb : BitVec 4} {period : BitVec 24} {rest : List Turn} (he : s.due = 0) (ha : s.agenda = .host :: rest)
  (hw : s.hostState = .waitSched cb period)

include he ha hw

theorem step_host_of_waitSched :
    step s = .next (resumeSchreg cb period { s with agenda := rest }) := by
  rw [step_turn he ha, takeTurn, hostTurn, hw]

theorem step_host_of_waitSched_of_idle (hi : s.schedState = .idle) :
    step s = .next (registerCallback cb period { s with agenda := rest }) := by
  rw [step_host_of_waitSched he ha hw, resumeSchreg_of_idle]
  exact hi

theorem step_host_of_waitSched_of_not_idle (hi : s.schedState ≠ .idle) :
    step s = .next { s with agenda := rest } := by
  rw [step_host_of_waitSched he ha hw, resumeSchreg_of_not_idle]
  exact hi

end HeldSchreg

end Sys2Proof.Machine
end

section
namespace Sys2Proof.Machine

/-- Settles O23: each clause is the branch of SCHREG, or of the Host's turn in its hold, that the state selects. A held
command ends as one in Ready does, for its end makes the Host Ready itself. -/
theorem schregResult : Obligations.SchregResult := by
  refine ⟨fun cb _ hp => decode_schreg cb hp, fun s cb ready => ?_, fun s cb period ready idle hp room => ?_,
    fun s cb period ready idle hp full => ?_, fun s cb period ready walking hp => ?_,
    fun s cb period rest quiet turn held walking => ?_, fun s cb period rest quiet turn held idle hp => ?_⟩
  · rw [exec, execSchreg_zero ready, State.respond_of_ready ready]
  · rw [exec, execSchreg_of_idle ready idle hp, registerCallback_of_room room, add_widenPeriod,
      State.respond_of_ready]
    exact ready
  · rw [exec, execSchreg_of_idle ready idle hp, registerCallback_of_full full, State.respond_of_ready ready]
  · exact execSchreg_of_not_idle ready walking hp cb
  · exact step_host_of_waitSched_of_not_idle quiet turn held walking
  · let t : State := { s with agenda := rest, hostState := .ready }
    calc
      step s = .next (registerCallback cb period { s with agenda := rest }) :=
        step_host_of_waitSched_of_idle quiet turn held idle
      _ = .next (registerCallback cb period t) := congrArg _ (registerCallback_hostState cb period _ .ready).symm
      _ = exec (.schreg cb period) t := (execSchreg_of_idle (s := t) rfl idle hp cb).symm

/-- Settles O25, by the two branches of SCHED_TICK. -/
theorem schedTickResult : Obligations.SchedTickResult := by
  refine ⟨by decide, fun s idle => ?_, fun s walking => execSchedTick_of_not_idle walking⟩
  have increment : s.tick + 1 = BitVec.ofNat 64 (s.tick.toNat + 1) := BitVec.eq_of_toNat_eq (by simp)
  rw [exec, execSchedTick_of_idle idle, increment]

/-- Settles O26: the step serves SCHED_TICK, whose request is the one that stands, and outside Idle the operation itself
changes nothing. -/
theorem schedTickLostDuringWalk : Obligations.SchedTickLostDuringWalk := by
  intro s walking line
  have served : decode (.event s.due) = .ok .schedTick := by
    rw [line]
    decide
  obtain ⟨-, alone⟩ : s.completionDue = false ∧ s.ev = ⟨true, false, false⟩ := by simpa using decode_due_cases served
  have consumed : s.consumeLine .schedTick = { s with ev := noRequests } := by
    rw [State.consumeLine, alone]
    rfl
  rw [step_event served, consumed]
  exact execSchedTick_of_not_idle walking

/-- Settles O27, by the three branches of the walk step. -/
theorem walkStepResult : Obligations.WalkStepResult := by
  intro s i rest quiet turn walking
  let t : State := { s with agenda := rest }
  have walks : step s = .next (walkStep t) := step_turn quiet turn
  rw [walks]
  refine ⟨fun past => ?_, fun h => ⟨fun due => ?_, fun notDue => ?_⟩⟩
  · exact congrArg _ (walkStep_of_length_le (s := t) walking past)
  · exact congrArg _ (walkStep_of_le (s := t) walking h due)
  · exact congrArg _ (walkStep_of_lt (s := t) walking h notDue)

/-- Settles O28: CB_RET modifies the list at the index waited for alone, and adds there the period to next_fire. -/
theorem cbRetResult : Obligations.CbRetResult := by
  refine ⟨by decide, fun s i waiting => ⟨_, execCbRet_of_wait waiting, rfl, fun j => ?_⟩,
    fun s stray => execCbRet_of_not_wait stray⟩
  split
  next same =>
    subst same
    exact (List.getElem?_modify_eq ..).trans (congrArg (Option.map · _) (funext CallbackRecord.advance_eq))
  next other => exact List.getElem?_modify_ne _ _ (Ne.symm other)

/-- Settles O29: in Ready the command is accepted, and its end leaves the Host in Ready. -/
theorem tickrdResult : Obligations.TickrdResult := by
  refine ⟨by decide, fun s ready => ?_⟩
  rw [exec, execTickrd, accept_ready ready, State.respond_of_ready ready]

end Sys2Proof.Machine
end

section
/-! The words of FBWR and COMPILE (R92, R100), what each of the two leaves in Ready, and the framebuffer after a write of
one channel (R20, R140). -/

namespace Sys2Proof

theorem decode_host_of_opcOf_one {w : Cmd} (h : opcOf w = 0x1#4) : decode (.host w) = decodeFbwr w := by
  simp [decode, decodeHost, h]

/-- FBWR's word is its opc, its index, its channel code, twelve zeros and its value, in this order (R92). -/
theorem decode_fbwr {idx : BitVec 6} (hi : idx.toNat < 60) (ch : Channel) (v : Level) :
    decode (.host (0x1#4 ++ idx ++ ch.code ++ 0x000#12 ++ v)) = .ok (.fbwr idx ch v) := by
  have legal : idx ≤ 59#6 := BitVec.le_def.mpr (Nat.le_of_lt_succ hi)
  refine decode_host_eq_ok_iff.mpr ⟨⟨?opc, ?zeros⟩, ?idx, legal, ?code, BitVec.extractLsb'_append_eq_right⟩
  case opc =>
    rw [opcOf]
    iterate 3 rw [BitVec.extractLsb'_append_eq_of_le (by decide)]
    exact BitVec.extractLsb'_append_eq_left
  case zeros =>
    rw [BitVec.extractLsb'_append_eq_of_le (by decide)]
    exact BitVec.extractLsb'_append_eq_right
  case idx =>
    iterate 3 rw [BitVec.extractLsb'_append_eq_of_le (by decide)]
    exact BitVec.extractLsb'_append_eq_right
  case code =>
    iterate 2 rw [BitVec.extractLsb'_append_eq_of_le (by decide)]
    exact BitVec.extractLsb'_append_eq_right

/-- COMPILE's word is its opc, zeros, and its rotation flag as bit 0 (R92). -/
theorem decode_compile (rot : Bool) :
    decode (.host (0x2#4 ++ 0#27 ++ BitVec.ofBool rot)) = .ok (.compile rot) := by
  cases rot <;> decide

theorem decodeFbwr_isError {w : Cmd}
    (h : 60 ≤ (w.extractLsb' 22 6).toNat ∨ w.extractLsb' 20 2 = 3#2 ∨ w.extractLsb' 8 12 ≠ 0#12) :
    ∃ e, decodeFbwr w = .error e := by
  cases hw : decodeFbwr w with
  | error e => exact ⟨e, rfl⟩
  | ok i =>
    obtain ⟨zeros, idx, ch, code, -⟩ := decodeFbwr_eq_ok_iff.mp hw
    rcases h with badIndex | badCode | badZeros
    · exact absurd (BitVec.le_def.mp idx) (Nat.not_le.mpr badIndex)
    · have noCode : ch.code ≠ 3#2 := by cases ch <;> decide
      exact absurd (code.symm.trans badCode) noCode
    · exact absurd zeros badZeros

end Sys2Proof

namespace Sys2Proof.Machine

variable {s : State}

theorem State.setPixelChannel_x_getElem (s : State) (i : Fin 60) (ch : Channel) (v : Level) (j : Fin 60) :
    (s.setPixelChannel i ch v).x[j.val] = if j = i then setChannelOfPixel s.x[j.val] ch v else s.x[j.val] := by
  rw [State.setPixelChannel_x]
  by_cases same : j = i
  · subst same
    rw [if_pos rfl, Vector.getElem_set_self]
  · rw [if_neg same, Vector.getElem_set_ne _ _ (Fin.val_ne_of_ne (Ne.symm same))]

theorem execFbwr_of_lt (ready : s.hostState = .ready) {idx : BitVec 6} (hi : idx.toNat < 60) (ch : Channel)
    (v : Level) : execFbwr idx ch v s = .next (s.setPixelChannel ⟨idx.toNat, hi⟩ ch v).respondOk := by
  rw [execFbwr, accept_ready ready, dif_pos hi]

theorem execFbwr_of_le (ready : s.hostState = .ready) {idx : BitVec 6} (hi : 60 ≤ idx.toNat) (ch : Channel)
    (v : Level) : execFbwr idx ch v s = .next (s.takeException .illegalCommand) := by
  rw [execFbwr, accept_ready ready, dif_neg (Nat.not_lt.mpr hi)]

theorem execCompile_of_ready (ready : s.hostState = .ready) (rot : Bool) :
    execCompile rot s = .next { s with table := s.compiledTable rot }.respondOk := by
  rw [execCompile, accept_ready ready]

end Sys2Proof.Machine
end

section
namespace Sys2Proof.Machine

/-- Settles O15: in Ready COMPILE leaves the compiled table, whose words inside and outside the target slot are those of
its two reading laws. -/
theorem compileResult : Obligations.CompileResult := by
  refine ⟨decode_compile, fun s rot ready canonical => ⟨_, execCompile_of_ready ready rot, ?_, ?_, ?_⟩⟩
  · exact State.respond_of_ready (s := { s with table := s.compiledTable rot }) ready ⟨0, 0⟩
  · exact fun g _ q hs => State.compiledTable_read_target canonical rot g hs q
  · exact fun _ outside => State.compiledTable_read_other canonical rot outside

/-- Settles O16, by the laws of the word function: WIRE_MAP gives each channel a bit of its own. -/
theorem wordFunctionBits : Obligations.WordFunctionBits := by
  refine fun s g step q rot legal => ⟨fun p ch => ?_, fun _ unused => State.tableWord_unused g step q rot unused,
    fun dead => State.tableWord_dead g q rot dead⟩
  rw [State.tableWord_wire legal, State.channelOn, Bool.decide_and]

/-- Settles O17: a dead-time step's word is one of those that COMPILE writes, and its word function is 0x0000. -/
theorem compileZeroesDeadTime : Obligations.CompileZeroesDeadTime := by
  intro s t rot g step q ready canonical compiled dead inGroup
  cases (execCompile_of_ready ready rot).symm.trans compiled
  calc
    (s.compiledTable rot).read (s.cfg.addr s.compileTarget g step q) = s.tableWord g step q rot :=
      State.compiledTable_read_target canonical rot g inGroup q
    _ = 0x0000 := State.tableWord_dead g q rot dead

/-- Settles O14: FBWR's two branches by the index, with the registers after the write by channel. -/
theorem fbwrResult : Obligations.FbwrResult := by
  refine ⟨fun _ ch v hi => decode_fbwr hi ch v, fun s idx ch v ready hi =>
      ⟨_, execFbwr_of_lt ready hi ch v, ?frame, fun i c => ?channel, fun i other => ?register⟩,
    fun s idx ch v ready hi => ?illegal, fun w opc bad => ?illegalWord⟩
  case frame => exact State.respond_of_ready (s := s.setPixelChannel ⟨idx.toNat, hi⟩ ch v) ready ⟨0, 0⟩
  case channel =>
    rw [State.respondOk_x, State.setPixelChannel_x_getElem]
    by_cases same : i.val = idx.toNat <;> simp [Fin.ext_iff, same]
  case register =>
    rw [State.respondOk_x, State.setPixelChannel_x_getElem, if_neg (Fin.ne_of_val_ne other)]
  case illegal => exact (execFbwr_of_le ready hi ch v).trans (congrArg _ (State.respond_of_ready ready ⟨1, 0⟩))
  case illegalWord =>
    rw [decode_host_of_opcOf_one opc]
    exact decodeFbwr_isError bad

end Sys2Proof.Machine
end

section
/-! The scan driver's operations branch by branch (R161 to R163, R166), the common lines after one of them is switched
(R26), and the words of a time-slice by quadrant (R62, R163). -/

namespace Sys2Proof.Machine

variable {s : State}

theorem execScanTick_of_busy (busy : s.xferBusy = true) : execScanTick s = .next s := by
  rw [execScanTick, if_pos busy]

theorem execScanTick_of_eq (free : s.xferBusy = false) (last : s.stepCtr = s.cfg.nStep) :
    execScanTick s = .next (wrapGroup s) := by
  rw [execScanTick, if_neg (Bool.eq_false_iff.mp free), if_pos last]

theorem execScanTick_of_lt (free : s.xferBusy = false) (within : s.stepCtr < s.cfg.nStep) :
    execScanTick s = .next (issueTransfer s) := by
  rw [execScanTick, if_neg (Bool.eq_false_iff.mp free), if_neg within.ne, if_pos within]

theorem execXferDone_of_waiting (waiting : s.xferDone = false ∨ s.shiftBusy = true) :
    execXferDone s = .next s := by
  rw [execXferDone, if_neg]
  rintro ⟨signalled, drained⟩
  rcases waiting with notSignalled | busy
  · exact Bool.eq_false_iff.mp notSignalled signalled
  · exact drained busy

theorem execXferDone_of_drained (signalled : s.xferDone = true) (drained : s.shiftBusy = false) :
    execXferDone s = .next (completeTransfer s) := by
  rw [execXferDone, if_pos ⟨signalled, Bool.eq_false_iff.mp drained⟩]

theorem nextGroup_val (g : Group) : (nextGroup g).val = (g.val + 1) % 3 := Fin.val_add g 1

theorem groupLine_getLsbD_of_lt (g : Group) {b : Nat} (hb : b < 3) :
    (groupLine g).getLsbD b = decide (b = g.val) :=
  (groupLine_getLsbD g ⟨b, hb⟩).trans (decide_eq_decide.mpr (Fin.ext_iff.trans eq_comm))

theorem getLsbD_or_groupLine (lines : BitVec 3) (g : Group) {b : Nat} (hb : b < 3) :
    (lines ||| groupLine g).getLsbD b = (lines.getLsbD b || decide (b = g.val)) := by
  rw [BitVec.getLsbD_or, groupLine_getLsbD_of_lt g hb]

theorem getLsbD_and_not_groupLine (lines : BitVec 3) (g : Group) {b : Nat} (hb : b < 3) :
    (lines &&& ~~~ groupLine g).getLsbD b = (lines.getLsbD b && !decide (b = g.val)) := by
  rw [BitVec.getLsbD_and, BitVec.getLsbD_not, groupLine_getLsbD_of_lt g hb, decide_eq_true hb, Bool.true_and]

theorem State.fetchWords_getElem (s : State) (slot : Slot) (g : Group) (step : Nat) (q : Quadrant) :
    (s.fetchWords slot g step)[q.val] = s.table.read (s.cfg.addr slot g step q) := by
  simp only [State.fetchWords_eq]
  fin_cases q <;> rfl

/-- The step completed is the first dead-time step where the step counter stands one past it, for S is at least 1. -/
theorem stepCtr_sub_one_eq_pwmSteps_iff : s.stepCtr - 1 = s.cfg.pwmSteps ↔ s.stepCtr = s.cfg.pwmSteps + 1 := by
  have := s.cfg.pwmSteps_pos
  omega

/-- SCAN_TICK's request is the one that stands where its line alone is due. -/
theorem consumeLine_scanTick_of_due (line : s.due = 0b0010) :
    s.consumeLine .scanTick = { s with ev := noRequests } := by
  obtain ⟨sched, -, -, ret⟩ := s.ev.getLsbD_vector s.completionDue
  rw [State.due] at line
  have noSched : s.ev.schedTick = false := by rw [← sched, line]; decide
  have noRet : s.ev.cbRet = false := by rw [← ret, line]; decide
  rw [State.consumeLine, Requests.without, noSched, noRet]

end Sys2Proof.Machine
end

section
namespace Sys2Proof.Machine

/-- Settles O33: the wrap branch; the group entered is the next modulo 3, and its line alone is switched on. -/
theorem scanTickWrap : Obligations.ScanTickWrap := by
  intro s free last
  refine ⟨_, execScanTick_of_eq free last, nextGroup_val _, rfl, ?swap, fun b hb => ?common, rfl⟩
  case swap => simp [State.swapPending]
  case common => rw [wrapGroup_common, wrapGroup_groupCtr, getLsbD_or_groupLine _ _ hb]

/-- Settles O34: the issue branch; the words copied are those at the linear address of the scan position. -/
theorem scanTickIssue : Obligations.ScanTickIssue := by
  intro s free within
  exact ⟨_, execScanTick_of_lt free within, s.fetchWords_getElem s.readSlot s.groupCtr s.stepCtr, rfl⟩

/-- Settles O37: until the handler can run nothing changes; then its effect, field by field, with the common line
switched off where the completed step is S. That the handler is then no longer late is the model's (log entry 8). -/
theorem xferDoneResult : Obligations.XferDoneResult := by
  refine ⟨by decide, fun s waiting => execXferDone_of_waiting waiting, fun s signalled drained =>
    ⟨_, execXferDone_of_drained signalled drained, ?_⟩⟩
  simp only [completeTransfer_eq, stepCtr_sub_one_eq_pwmSteps_iff, true_and]
  by_cases completed : s.stepCtr = s.cfg.pwmSteps + 1
  · simp only [completed, if_true, true_and, and_true]
    exact fun b hb => getLsbD_and_not_groupLine _ _ hb
  · simp [completed]

/-- Settles O32: the hold branch; the step serves SCAN_TICK, whose request is the one that stands. -/
theorem scanTickHold : Obligations.ScanTickHold := by
  refine ⟨fun s busy => execScanTick_of_busy busy, fun s busy line => ?_⟩
  have served : decode (.event s.due) = .ok .scanTick := by
    rw [line]
    decide
  rw [step_event served, consumeLine_scanTick_of_due line]
  exact execScanTick_of_busy (s := { s with ev := noRequests }) busy

end Sys2Proof.Machine
end

section
/-! SWAPREQ in Ready (R190), and the Host's turn in its wait for the swap, branch by branch (R191). -/

namespace Sys2Proof.Machine

variable {s : State}

theorem execSwapreq_of_ready (ready : s.hostState = .ready) :
    execSwapreq s = .next { s with writeSlot := 1 - s.writeSlot, hostState := .waitSwap } := by
  rw [execSwapreq, accept_ready ready]

theorem releaseSwap_of_eq (swapped : s.writeSlot = s.readSlot) : releaseSwap s = s.respondOk :=
  ((releaseSwap_cases s).resolve_right (·.1 swapped)).2

theorem releaseSwap_of_ne (pending : s.writeSlot ≠ s.readSlot) : releaseSwap s = s :=
  ((releaseSwap_cases s).resolve_left (pending ·.1)).2

/-- With no event to serve, the Host's turn in WaitSwap is the release step. -/
theorem step_host_of_waitSwap {rest : List Turn} (quiet : s.due = 0) (turn : s.agenda = .host :: rest)
    (waiting : s.hostState = .waitSwap) : step s = .next (releaseSwap { s with agenda := rest }) := by
  rw [step_turn quiet turn, takeTurn, hostTurn, waiting]

end Sys2Proof.Machine
end

section
namespace Sys2Proof.Machine

/-- Settles O21: in Ready the command is accepted, and of two slots the flip gives the other one. -/
theorem swapreqResult : Obligations.SwapreqResult := by
  refine ⟨by decide, fun s ready => ⟨execSwapreq_of_ready ready, fun same => ?_⟩⟩
  rw [← same]
  exact one_sub_slot_ne s.writeSlot

/-- Settles O22, by the two branches of the release step. -/
theorem swapreqRelease : Obligations.SwapreqRelease := by
  intro s rest quiet turn waiting
  rw [step_host_of_waitSwap quiet turn waiting]
  split
  next swapped => exact congrArg _ (releaseSwap_of_eq (s := { s with agenda := rest }) swapped)
  next pending => exact congrArg _ (releaseSwap_of_ne (s := { s with agenda := rest }) pending)

end Sys2Proof.Machine
end

section
/-! The Host's turn in Ready (R25), and a word at the port that is no command (R202). -/

namespace Sys2Proof.Machine

variable {s : State}

/-- With no event to serve, the Host's turn in Ready runs the word at the port. -/
theorem step_host_of_ready {rest : List Turn} (quiet : s.due = 0) (turn : s.agenda = .host :: rest)
    (ready : s.hostState = .ready) : step s = runCommand { s with agenda := rest } := by
  rw [step_turn quiet turn, takeTurn, hostTurn, ready]

theorem runCommand_of_error {w : Cmd} {ws : List Cmd} {e : DecodeError} (head : s.port = w :: ws)
    (illegal : decode (.host w) = .error e) :
    runCommand s = .next (takeIllegalCommand { s with port := ws }) := by
  simp only [runCommand, head, illegal]

theorem takeIllegalCommand_of_ready (ready : s.hostState = .ready) :
    takeIllegalCommand s = { s with resp := ⟨1, 0⟩, trace := s.trace ++ [.done ⟨1, 0⟩] } := by
  rw [takeIllegalCommand, accept_ready ready, State.takeException, State.respond_of_ready ready, statusOf]

end Sys2Proof.Machine
end

section
namespace Sys2Proof.Machine

/-- Settles O10: in Ready the command is accepted, and its end leaves the Host in Ready. -/
theorem nopResult : Obligations.NopResult := by
  refine ⟨by decide, fun s ready => ?_⟩
  rw [exec, execNop, accept_ready ready, State.respondOk, State.respond_of_ready ready]

/-- Settles O11: the turn runs the word at the port, which is illegal, so the Host takes the exception in Ready. -/
theorem illegalWordResult : Obligations.IllegalWordResult := by
  intro s e w ws rest quiet turn ready head illegal
  rw [step_host_of_ready quiet turn ready, runCommand_of_error (s := { s with agenda := rest }) head illegal,
    takeIllegalCommand_of_ready (s := { s with agenda := rest, port := ws }) ready]

end Sys2Proof.Machine
end

section
/-! Building a configuration (R215): which step counts have a logarithm (R5), and when a block is built. -/

namespace Sys2Proof

theorem Config.logOf_eq_some_iff {s : Nat} {k : Fin 9} : Config.logOf s = some k ↔ s = 2 ^ k.val := by
  constructor
  · intro h
    unfold Config.logOf at h
    split at h <;> cases h <;> rfl
  · rintro rfl
    fin_cases k <;> rfl

/-- The step counts R5 lists are the nine powers of two that a configuration can hold. -/
theorem mem_stepCounts_iff {s : Nat} :
    s ∈ [1, 2, 4, 8, 16, 32, 64, 128, 256] ↔ ∃ k : Fin 9, s = 2 ^ k.val := by
  have powers : [1, 2, 4, 8, 16, 32, 64, 128, 256] = (List.finRange 9).map fun k => 2 ^ k.val := by decide
  simp [powers, eq_comm]

theorem Config.build_eq_some_iff {s d nCb refresh schedHz scanHz : Nat} {wire : Vector (Fin 16) 15}
    {rot : Vector (Fin 60) 60} {c : Config} :
    Config.build s d nCb wire rot refresh schedHz scanHz = some c ↔
      ∃ k : Fin 9, s = 2 ^ k.val ∧ c = ⟨k, d, wire, rot, nCb, refresh, schedHz, scanHz⟩ ∧ c.Legal := by
  simp only [← Config.logOf_eq_some_iff]
  unfold Config.build
  cases Config.logOf s with
  | none => simp
  | some k =>
    simp only [Option.ite_none_right_eq_some, Option.some.injEq, exists_eq_left']
    constructor
    · rintro ⟨legal, rfl⟩
      exact ⟨rfl, legal⟩
    · rintro ⟨rfl, legal⟩
      exact ⟨legal, rfl⟩

end Sys2Proof
end

section
namespace Sys2Proof.Machine

/-- Settles O58: a block is built exactly where S is a power of two that has a logarithm of R5 and the parameters are
legal, and it holds the parameters themselves. -/
theorem illegalConfigurationRefused : Obligations.IllegalConfigurationRefused := by
  intro s d nCb refresh schedHz scanHz wire rot
  simp only [Config.build_eq_some_iff, mem_stepCounts_iff]
  refine ⟨⟨?sound, ?complete⟩, ?values⟩
  case sound =>
    rintro ⟨_, k, rfl, rfl, legal⟩
    exact ⟨⟨k, rfl⟩, legal⟩
  case complete =>
    rintro ⟨⟨k, rfl⟩, legal⟩
    exact ⟨_, k, rfl, rfl, legal⟩
  case values =>
    rintro _ ⟨k, rfl, rfl, -⟩
    exact ⟨rfl, rfl, rfl, rfl, rfl⟩

/-- Settles O24: SCHREG in Ready is the full-list branch of R120, and a held SCHREG ends as that branch does, which makes
the Host Ready. -/
theorem schregOnFullList : Obligations.SchregOnFullList := by
  obtain ⟨-, -, -, atOnce, -⟩ := schregResult
  refine ⟨atOnce, fun s cb period rest quiet turn held idle full => ?_⟩
  rw [step_host_of_waitSched_of_idle quiet turn held idle,
    registerCallback_of_full (s := { s with agenda := rest }) full, State.respond]

end Sys2Proof.Machine
end

section
/-! A SCHED_TICK with its whole walk (R121 to R123, R126): the walk leaves the records behind it as the tick has made
them, and those ahead of it as they were. -/

namespace Sys2Proof.Machine

variable {s : State} {i : Nat}

/-- What the walk of a SCHED_TICK leaves of a record: the advanced one where the record is due (R122, R123). -/
def CallbackRecord.walked (tick : BitVec 64) (r : CallbackRecord) : CallbackRecord :=
  if r.nextFire ≤ tick then r.advance else r

/-- The callbacks that the walk of a SCHED_TICK starts, in its order (R122, R126). -/
def invocations (tick : BitVec 64) (records : List CallbackRecord) : List Output :=
  (records.filter fun r => decide (r.nextFire ≤ tick)).map fun r => .cbInvoke r.cb

theorem invocations_cons (tick : BitVec 64) (r : CallbackRecord) (records : List CallbackRecord) :
    invocations tick (r :: records) =
      (if r.nextFire ≤ tick then [.cbInvoke r.cb] else []) ++ invocations tick records := by
  by_cases due : r.nextFire ≤ tick <;> simp [invocations, due]

/-- A callback tag is invoked once for each record of that tag that is due. -/
theorem count_invocations (tick : BitVec 64) (records : List CallbackRecord) (cb : BitVec 4) :
    (invocations tick records).count (.cbInvoke cb) =
      ((records.filter fun r => decide (r.cb = cb)).map fun r => if r.nextFire ≤ tick then 1 else 0).sum := by
  induction records with
  | nil => rfl
  | cons r records ih =>
    rw [invocations_cons, List.count_append, ih]
    by_cases due : r.nextFire ≤ tick <;> by_cases tag : r.cb = cb <;> simp [due, tag]

theorem finishWalk_of_idle (idle : s.schedState = .idle) (n : Nat) : finishWalk n s = .next s := by
  cases n with
  | zero => rfl
  | succ n => rw [finishWalk, idle]

theorem finishWalk_walk (walking : s.schedState = .walk i) (n : Nat) :
    finishWalk (n + 1) s = finishWalk n (walkStep s) := by
  rw [finishWalk, walking]

theorem finishWalk_wait (waiting : s.schedState = .wait i) (n : Nat) :
    finishWalk (n + 1) s =
      finishWalk n { s with cblist := s.cblist.modify i CallbackRecord.advance, schedState := .walk (i + 1) } := by
  rw [finishWalk, waiting, exec, execCbRet_of_wait waiting]
  rfl

section OneRecord

variable {passed rest : List CallbackRecord} {r : CallbackRecord} (list : s.cblist = passed ++ r :: rest)
  (walking : s.schedState = .walk passed.length)

include list walking

/-- A record that is due takes the walk two steps, the invocation and the return. -/
theorem finishWalk_of_due (due : r.nextFire ≤ s.tick) (n : Nat) :
    finishWalk (n + 2) s = finishWalk n { s with
      cblist := passed ++ r.advance :: rest
      schedState := .walk (passed.length + 1)
      trace := s.trace ++ [.cbInvoke r.cb] } := by
  have within : passed.length < s.cblist.length := by simp [list]
  have here : s.cblist[passed.length] = r := by simp [list]
  have invoked : walkStep s =
      { s with schedState := .wait passed.length, trace := s.trace ++ [.cbInvoke r.cb] } := by
    rw [walkStep_of_le walking within (by rwa [here]), here]
  have returned : s.cblist.modify passed.length CallbackRecord.advance = passed ++ r.advance :: rest := by
    rw [List.modify_eq_take_cons_drop within, here]
    simp [list]
  rw [finishWalk_walk walking, invoked, finishWalk_wait rfl, returned]

theorem finishWalk_of_not_due (notDue : s.tick < r.nextFire) (n : Nat) :
    finishWalk (n + 1) s = finishWalk n { s with schedState := .walk (passed.length + 1) } := by
  have within : passed.length < s.cblist.length := by simp [list]
  have here : s.cblist[passed.length] = r := by simp [list]
  rw [finishWalk_walk walking, walkStep_of_lt walking within (by rwa [here])]

end OneRecord

theorem finishWalk_of_walk {passed rest : List CallbackRecord} {n : Nat} (list : s.cblist = passed ++ rest)
    (walking : s.schedState = .walk passed.length) (fuel : 2 * rest.length < n) :
    finishWalk n s = .next { s with
      cblist := passed ++ rest.map (CallbackRecord.walked s.tick)
      schedState := .idle
      trace := s.trace ++ invocations s.tick rest } := by
  induction rest generalizing s passed n with
  | nil =>
    obtain ⟨n, rfl⟩ := Nat.exists_eq_add_one.mpr fuel
    rw [finishWalk_walk walking, walkStep_of_length_le walking (by simp [list]), finishWalk_of_idle rfl]
    simp [invocations, ← list]
  | cons r rest ih =>
    rw [List.length_cons] at fuel
    by_cases due : r.nextFire ≤ s.tick
    · obtain ⟨n, rfl⟩ := Nat.exists_eq_add_of_le' (show 2 ≤ n by omega)
      rw [finishWalk_of_due list walking due, ih (passed := passed ++ [r.advance]) (by simp) (by simp) (by omega)]
      simp [invocations_cons, CallbackRecord.walked, due]
    · obtain ⟨n, rfl⟩ := Nat.exists_eq_add_of_le' (show 1 ≤ n by omega)
      rw [finishWalk_of_not_due list walking (BitVec.not_le.mp due),
        ih (passed := passed ++ [r]) (by simp [list]) (by simp) (by omega)]
      simp [invocations_cons, CallbackRecord.walked, due]

theorem schedRound_of_idle (idle : s.schedState = .idle) :
    schedRound s = .next { s with
      tick := s.tick + 1
      cblist := s.cblist.map (CallbackRecord.walked (s.tick + 1))
      schedState := .idle
      trace := s.trace ++ invocations (s.tick + 1) s.cblist } := by
  rw [schedRound, exec, execSchedTick_of_idle idle, andThen, finishWalk_of_walk (passed := []) rfl rfl (by simp)]
  rfl

end Sys2Proof.Machine
end

section
/-! The fire times of one record (R125): after k ticks it has fired as often as it takes to bring its next firing behind
them (`firings_le_iff`), and the rest follows from that. -/

namespace Sys2Proof.Machine

variable {r : CallbackRecord} {tick j k n : Nat}

/-- A record after `n` firings, each of which adds its period (R123). -/
def CallbackRecord.advanceBy (n : Nat) (r : CallbackRecord) : CallbackRecord :=
  ⟨r.cb, r.period, BitVec.ofNat 64 (r.nextFire.toNat + n * r.period.toNat)⟩

/-- A record that can fire again (R92 excludes period 0), and is not due yet. -/
def CallbackRecord.Pending (tick : Nat) (r : CallbackRecord) : Prop :=
  0 < r.period.toNat ∧ tick < r.nextFire.toNat

theorem CallbackRecord.pending_toNat_iff {tick : BitVec 64} :
    r.Pending tick.toNat ↔ r.period ≠ 0 ∧ tick < r.nextFire := by
  rw [Pending, BitVec.lt_def, Nat.pos_iff_ne_zero, ne_eq, ne_eq, ← BitVec.toNat_inj]
  rfl

theorem firings_le_iff (positive : 0 < r.period.toNat) :
    firings tick k r ≤ n ↔ tick + k < r.nextFire.toNat + n * r.period.toNat := by
  unfold firings
  split
  next before =>
    rw [iff_true_left (Nat.zero_le n)]
    omega
  next reached =>
    rw [Nat.add_one_le_iff, Nat.div_lt_iff_lt_mul positive]
    omega

theorem firings_of_registered (positive : 0 < r.period.toNat) (registered : r.nextFire.toNat = tick + r.period.toNat) :
    firings tick k r = k / r.period.toNat := by
  refine eq_of_forall_ge_iff fun n => ?_
  rw [firings_le_iff positive, registered, ← Nat.lt_succ_iff, Nat.div_lt_iff_lt_mul positive, Nat.succ_mul]
  omega

theorem firings_zero (pending : r.Pending tick) : firings tick 0 r = 0 :=
  if_pos pending.2

theorem firings_one {tick : BitVec 64} (pending : r.Pending tick.toNat) (next : (tick + 1).toNat = tick.toNat + 1) :
    firings tick.toNat 1 r = if r.nextFire ≤ tick + 1 then 1 else 0 := by
  obtain ⟨-, later⟩ := pending
  split
  next due =>
    have now : r.nextFire.toNat = tick.toNat + 1 := le_antisymm (next ▸ BitVec.le_def.mp due) later
    simp [firings, now]
  next notDue => exact if_pos (next ▸ BitVec.lt_def.mp (BitVec.not_le.mp notDue))

theorem CallbackRecord.advanceBy_zero : r.advanceBy 0 = r := by
  simp [advanceBy]

theorem CallbackRecord.advanceBy_one : r.advanceBy 1 = r.advance := by
  rw [advanceBy, Nat.one_mul, advance_eq]

theorem CallbackRecord.advanceBy_advanceBy (m n : Nat) : (r.advanceBy m).advanceBy n = r.advanceBy (m + n) := by
  apply congrArg (CallbackRecord.mk r.cb r.period)
  apply BitVec.eq_of_toNat_eq
  simp [advanceBy, Nat.add_mul, Nat.add_assoc]

namespace CallbackRecord.Pending

/-- Below the wrap of TICK the next firing does not wrap either, for it lies at most one period ahead. -/
theorem advanceBy_nextFire_toNat (pending : r.Pending tick) (noWrap : tick + k + 2 ^ 24 < 2 ^ 64) :
    (r.advanceBy (firings tick k r)).nextFire.toNat =
      r.nextFire.toNat + firings tick k r * r.period.toNat := by
  obtain ⟨positive, -⟩ := pending
  refine (BitVec.toNat_ofNat ..).trans (Nat.mod_eq_of_lt ?_)
  cases count : firings tick k r with
  | zero => simpa using r.nextFire.isLt
  | succ m =>
    have fired : ¬ firings tick k r ≤ m := by omega
    rw [firings_le_iff positive] at fired
    rw [Nat.succ_mul]
    have short := r.period.isLt
    omega

theorem advanceBy_firings (pending : r.Pending tick) (noWrap : tick + k + 2 ^ 24 < 2 ^ 64) :
    (r.advanceBy (firings tick k r)).Pending (tick + k) := by
  refine ⟨pending.1, ?_⟩
  rw [pending.advanceBy_nextFire_toNat noWrap]
  exact (firings_le_iff pending.1).mp le_rfl

/-- The firings of j + k ticks are those of the first j, and those that the record they leave has in the last k. -/
theorem firings_add (pending : r.Pending tick) (noWrap : tick + j + 2 ^ 24 < 2 ^ 64) :
    firings tick (j + k) r =
      firings tick j r + firings (tick + j) k (r.advanceBy (firings tick j r)) := by
  have positive := pending.1
  have next := pending.advanceBy_nextFire_toNat noWrap
  refine eq_of_forall_ge_iff fun n => ?_
  rw [firings_le_iff positive]
  by_cases enough : firings tick j r ≤ n
  · obtain ⟨m, rfl⟩ := Nat.exists_eq_add_of_le enough
    rw [Nat.add_le_add_iff_left, firings_le_iff (r := r.advanceBy _) positive, next, Nat.add_mul, ← Nat.add_assoc,
      ← Nat.add_assoc]
    rfl
  · have tooFew := mt (firings_le_iff positive).mpr enough
    omega

/-- The walk of one SCHED_TICK advances a record by its firings in that tick. -/
theorem walked_eq {tick : BitVec 64} (pending : r.Pending tick.toNat) (next : (tick + 1).toNat = tick.toNat + 1) :
    r.walked (tick + 1) = r.advanceBy (firings tick.toNat 1 r) := by
  rw [walked, firings_one pending next]
  split
  · exact advanceBy_one.symm
  · exact advanceBy_zero.symm

end CallbackRecord.Pending

end Sys2Proof.Machine
end

section
/-! The rounds of R125: what k SCHED_TICKs with their walks make of a state whose records are all to come. -/

namespace Sys2Proof.Machine

variable {s t u : State} {j k : Nat}

def State.AllPending (s : State) : Prop :=
  ∀ r ∈ s.cblist, r.Pending s.tick.toNat

/-- Every record of `s` has its firings of `k` ticks in `t`, and `t` has recorded an invocation for each. -/
structure FiredOver (k : Nat) (s t : State) : Prop where
  idle : t.schedState = .idle
  tick : t.tick.toNat = s.tick.toNat + k
  cblist : t.cblist = s.cblist.map fun r => r.advanceBy (firings s.tick.toNat k r)
  trace : ∃ new, t.trace = s.trace ++ new ∧ ∀ cb : BitVec 4,
    new.count (.cbInvoke cb) = ((s.cblist.filter fun r => decide (r.cb = cb)).map (firings s.tick.toNat k)).sum

theorem FiredOver.allPending (fired : FiredOver k s t) (pending : s.AllPending)
    (noWrap : s.tick.toNat + k + 2 ^ 24 < 2 ^ 64) : t.AllPending := by
  rw [State.AllPending, fired.cblist, fired.tick, List.forall_mem_map]
  exact fun r member => (pending r member).advanceBy_firings noWrap

theorem firedOver_zero (idle : s.schedState = .idle) (pending : s.AllPending) : FiredOver 0 s s where
  idle := idle
  tick := rfl
  cblist := by
    refine (List.map_id' _).symm.trans (List.map_congr_left fun r member => ?_)
    rw [firings_zero (pending r member), CallbackRecord.advanceBy_zero]
  trace := by
    refine ⟨[], (List.append_nil _).symm, fun cb => ?_⟩
    rw [List.map_congr_left (g := fun _ => 0) fun r member => firings_zero (pending r (List.mem_of_mem_filter member))]
    simp

/-- One SCHED_TICK with its walk. -/
theorem exists_firedOver_one (idle : s.schedState = .idle) (pending : s.AllPending)
    (noWrap : s.tick.toNat + 1 < 2 ^ 64) : ∃ t, schedRound s = .next t ∧ FiredOver 1 s t := by
  have next : (s.tick + 1).toNat = s.tick.toNat + 1 := by
    rw [BitVec.toNat_add_of_lt noWrap]
    rfl
  exact ⟨_, schedRound_of_idle idle, {
    idle := rfl
    tick := next
    cblist := List.map_congr_left fun r member => (pending r member).walked_eq next
    trace := by
      refine ⟨_, rfl, fun cb => ?_⟩
      rw [count_invocations]
      refine congrArg List.sum (List.map_congr_left fun r member => ?_)
      exact (firings_one (pending r (List.mem_of_mem_filter member)) next).symm }⟩

theorem FiredOver.trans (first : FiredOver j s t) (second : FiredOver k t u) (pending : s.AllPending)
    (noWrap : s.tick.toNat + j + 2 ^ 24 < 2 ^ 64) : FiredOver (j + k) s u where
  idle := second.idle
  tick := by rw [second.tick, first.tick, Nat.add_assoc]
  cblist := by
    rw [second.cblist, first.cblist, List.map_map, first.tick]
    refine List.map_congr_left fun r member => ?_
    rw [(pending r member).firings_add noWrap, Function.comp_apply, CallbackRecord.advanceBy_advanceBy]
  trace := by
    obtain ⟨new₁, trace₁, count₁⟩ := first.trace
    obtain ⟨new₂, trace₂, count₂⟩ := second.trace
    refine ⟨new₁ ++ new₂, by rw [trace₂, trace₁, List.append_assoc], fun cb => ?_⟩
    rw [List.count_append, count₁, count₂, first.cblist, first.tick, List.filter_map, List.map_map]
    refine List.sum_map_add.symm.trans (congrArg List.sum (List.map_congr_left fun r member => ?_))
    exact ((pending r (List.mem_of_mem_filter member)).firings_add noWrap).symm

theorem exists_firedOver (idle : s.schedState = .idle) (pending : s.AllPending)
    (noWrap : s.tick.toNat + k + 2 ^ 24 < 2 ^ 64) : ∃ t, schedRounds k s = .next t ∧ FiredOver k s t := by
  induction k generalizing s with
  | zero => exact ⟨s, rfl, firedOver_zero idle pending⟩
  | succ k ih =>
    obtain ⟨t, round, first⟩ := exists_firedOver_one idle pending (by omega)
    have below : s.tick.toNat + 1 + 2 ^ 24 < 2 ^ 64 := by omega
    obtain ⟨u, rounds, others⟩ := ih first.idle (first.allPending pending below) (by rw [first.tick]; omega)
    refine ⟨u, ?_, Nat.add_comm k 1 ▸ first.trans others pending below⟩
    rw [schedRounds, round, andThen, rounds]

end Sys2Proof.Machine
end

section
namespace Sys2Proof.Machine

/-- Settles O31, by induction on the ticks: a round fires each record as often as `firings` says of one tick, no record
is due after it, and the firings of consecutive ticks add up. -/
theorem callbackDriftBound : Obligations.CallbackDriftBound := by
  refine ⟨fun s k idle noneDue noWrap => ?_, fun r tick k => firings_of_registered⟩
  have pending : s.AllPending := fun r member => CallbackRecord.pending_toNat_iff.mpr (noneDue r member)
  obtain ⟨t, rounds, fired⟩ := exists_firedOver idle pending noWrap
  refine ⟨t, rounds, fired.idle, fired.tick, fired.cblist, fun r member => ?_, fired.trace⟩
  exact (CallbackRecord.pending_toNat_iff.mp (fired.allPending pending noWrap r member)).2

end Sys2Proof.Machine
end

section
/-! Encoding undoes decoding and decoding undoes encoding (R92, R93), and where the decoder answers an error, by the
opcode (R100). -/

namespace Sys2Proof

theorem encode_fbwr (idx : BitVec 6) (ch : Channel) (val : Level) :
    encode (.fbwr idx ch val) = .host (0x1#4 ++ idx ++ ch.code ++ 0x000#12 ++ val) := by
  rw [encode, hostWord]
  simp only [BitVec.append_assoc, BitVec.cast_eq]
  rfl

theorem encode_compile (rot : Bool) :
    encode (.compile rot) = .host (0x2#4 ++ 0#27 ++ BitVec.ofBool rot) := by
  rw [encode, hostWord, BitVec.append_assoc, BitVec.cast_eq]
  rfl

theorem encode_schreg (cb : BitVec 4) (period : BitVec 24) :
    encode (.schreg cb period) = .host (0x4#4 ++ cb ++ period) := by
  rw [encode, hostWord, BitVec.append_assoc, BitVec.cast_eq]
  rfl

theorem hostWord_of_fields {w : Cmd} {k : BitVec 4} {arg : BitVec 28} (opc : opcOf w = k) (rest : argOf w = arg) :
    hostWord k arg = w := by
  rw [← opc, ← rest, hostWord_opcOf_argOf]

section Fields

variable (w : Cmd)

theorem extractLsb'_append_extractLsb' {hi lo m n : Nat} (adjacent : hi = lo + n) :
    w.extractLsb' hi m ++ w.extractLsb' lo n = w.extractLsb' lo (m + n) :=
  BitVec.extractLsb'_append_extractLsb'_eq_extractLsb' adjacent

theorem argOf_eq_fbwrFields :
    w.extractLsb' 22 6 ++ w.extractLsb' 20 2 ++ w.extractLsb' 8 12 ++ w.extractLsb' 0 8 = argOf w := by
  rw [extractLsb'_append_extractLsb' w (show 22 = 20 + 2 from rfl),
    extractLsb'_append_extractLsb' w (show 20 = 8 + 12 from rfl),
    extractLsb'_append_extractLsb' w (show 8 = 0 + 8 from rfl)]
  rfl

theorem argOf_eq_compileFields : w.extractLsb' 1 27 ++ BitVec.ofBool (w.getLsbD 0) = argOf w := by
  have bit : BitVec.ofBool (w.getLsbD 0) = w.extractLsb' 0 1 := by
    ext i hi
    obtain rfl : i = 0 := by omega
    simp
  rw [bit]
  exact extractLsb'_append_extractLsb' w rfl

theorem argOf_eq_schregFields : w.extractLsb' 24 4 ++ w.extractLsb' 0 24 = argOf w :=
  extractLsb'_append_extractLsb' w rfl

theorem extractLsb'_toNat_eq_div_mod (lo n : Nat) : (w.extractLsb' lo n).toNat = w.toNat / 2 ^ lo % 2 ^ n := by
  rw [BitVec.extractLsb'_toNat, Nat.shiftRight_eq_div_pow]

theorem argOf_toNat : (argOf w).toNat = w.toNat % 2 ^ 28 := by
  rw [argOf, extractLsb'_toNat_eq_div_mod, Nat.pow_zero, Nat.div_one]

end Fields

/-- A word with an operation's fields is the operation's code: no bit of it is left over (R92). -/
theorem Instr.FieldsOf.encode_eq {w : Cmd} {i : Instr} (h : i.FieldsOf w) : encode i = .host w := by
  cases i with
  | nop | swapreq | tickrd =>
    obtain ⟨opc, zeros⟩ := h
    exact congrArg Code.host (hostWord_of_fields opc zeros)
  | fbwr idx ch val =>
    obtain ⟨⟨opc, zeros⟩, rfl, -, code, rfl⟩ := h
    refine congrArg Code.host (hostWord_of_fields opc ?_)
    rw [← argOf_eq_fbwrFields, code, zeros]
  | compile rot =>
    obtain ⟨⟨opc, zeros⟩, rfl⟩ := h
    refine congrArg Code.host (hostWord_of_fields opc ?_)
    rw [← argOf_eq_compileFields, zeros]
  | schreg cb period =>
    obtain ⟨opc, rfl, rfl, -⟩ := h
    exact congrArg Code.host (hostWord_of_fields opc (argOf_eq_schregFields w).symm)
  | schedTick | scanTick | xferDone | cbRet => exact h.elim

theorem Instr.FieldsOf.wellFormed {w : Cmd} {i : Instr} (h : i.FieldsOf w) : i.wellFormed = true := by
  cases i with
  | nop | swapreq | tickrd | compile => rfl
  | fbwr idx ch val =>
    obtain ⟨-, -, legal, -⟩ := h
    exact decide_eq_true legal
  | schreg cb period =>
    obtain ⟨-, -, -, legal⟩ := h
    exact decide_eq_true legal
  | schedTick | scanTick | xferDone | cbRet => exact h.elim

theorem channelOf_eq_none_iff {b : BitVec 2} : channelOf b = none ↔ b = 3#2 := by
  revert b
  decide

theorem decodePlain_isError_iff {w : Cmd} {i : Instr} : (∃ e, decodePlain w i = .error e) ↔ argOf w ≠ 0#28 := by
  unfold decodePlain
  split <;> simp [*]

theorem decodeSchreg_isError_iff {w : Cmd} : (∃ e, decodeSchreg w = .error e) ↔ w.extractLsb' 0 24 = 0#24 := by
  unfold decodeSchreg
  split <;> simp [*]

theorem decodeFbwr_isError_iff {w : Cmd} :
    (∃ e, decodeFbwr w = .error e) ↔
      w.extractLsb' 8 12 ≠ 0#12 ∨ 60 ≤ (w.extractLsb' 22 6).toNat ∨ w.extractLsb' 20 2 = 3#2 := by
  refine ⟨fun ⟨e, illegal⟩ => ?_, fun illegal => decodeFbwr_isError (by tauto)⟩
  by_contra! legal
  obtain ⟨zeros, idx, code⟩ := legal
  obtain ⟨ch, named⟩ := Option.ne_none_iff_exists'.mp (mt channelOf_eq_none_iff.mp code)
  have accepted := decodeFbwr_eq_ok_iff.mpr
    ⟨zeros, BitVec.le_def.mpr (Nat.le_of_lt_succ idx), ch, channelOf_eq_some_iff.mp named, rfl⟩
  rw [accepted] at illegal
  cases illegal

/-- R100 on the fields of a word: a reserved opcode, or what its opcode's row refuses. -/
theorem decode_host_isError_iff {w : Cmd} :
    (∃ e, decode (.host w) = .error e) ↔
      6 ≤ (opcOf w).toNat ∨
        ((opcOf w = 0x0#4 ∨ opcOf w = 0x3#4 ∨ opcOf w = 0x5#4) ∧ argOf w ≠ 0#28) ∨
        (opcOf w = 0x1#4 ∧
          (w.extractLsb' 8 12 ≠ 0#12 ∨ 60 ≤ (w.extractLsb' 22 6).toNat ∨ w.extractLsb' 20 2 = 3#2)) ∨
        (opcOf w = 0x2#4 ∧ w.extractLsb' 1 27 ≠ 0#27) ∨
        (opcOf w = 0x4#4 ∧ w.extractLsb' 0 24 = 0#24) := by
  have opcodes : ∀ k : BitVec 4,
      k = 0x0#4 ∨ k = 0x1#4 ∨ k = 0x2#4 ∨ k = 0x3#4 ∨ k = 0x4#4 ∨ k = 0x5#4 ∨ 6 ≤ k.toNat := by decide
  rcases opcodes (opcOf w) with opc | opc | opc | opc | opc | opc | opc
  · simp [decode, decodeHost, opc, decodePlain_isError_iff]
  · simp [decode, decodeHost, opc, decodeFbwr_isError_iff]
  · by_cases zeros : w.extractLsb' 1 27 = 0#27 <;> simp [decode, decodeHost, opc, zeros]
  · simp [decode, decodeHost, opc, decodePlain_isError_iff]
  · simp [decode, decodeHost, opc, decodeSchreg_isError_iff]
  · simp [decode, decodeHost, opc, decodePlain_isError_iff]
  · exact iff_of_true ⟨_, decode_host_of_six_le_opcOf opc⟩ (.inl opc)

end Sys2Proof
end

section
namespace Sys2Proof.Machine

/-- Settles O1, operation by operation: a command's code is its word with the fields in R92's order, which the decoder
reads back, and an event's code has its line alone up. -/
theorem encodeThenDecode : Obligations.EncodeThenDecode := by
  intro i wf
  cases i with
  | nop | swapreq | tickrd => decide
  | fbwr idx ch val =>
    rw [encode_fbwr]
    exact decode_fbwr (Nat.lt_succ_of_le (BitVec.le_def.mp (of_decide_eq_true wf))) ch val
  | compile rot =>
    rw [encode_compile]
    exact decode_compile rot
  | schreg cb period =>
    rw [encode_schreg]
    exact decode_schreg cb (of_decide_eq_true wf)
  | schedTick | scanTick | xferDone | cbRet => decide

/-- Settles O2: a word that decodes has the fields of its operation, and those are all its bits. -/
theorem decodeThenEncode : Obligations.DecodeThenEncode := by
  intro w i decodes
  have fields := decode_host_eq_ok_iff.mp decodes
  exact ⟨fields.encode_eq, fields.wellFormed⟩

/-- Settles O3: R100 on the fields, each of which is a quotient and a remainder of the word. -/
theorem illegalWordsAreThoseNamed : Obligations.IllegalWordsAreThoseNamed := by
  intro w
  rw [decode_host_isError_iff]
  simp only [← BitVec.toNat_inj, ne_eq, opcOf_toNat, argOf_toNat, extractLsb'_toNat_eq_div_mod, BitVec.toNat_ofNat]
  have := w.isLt
  omega

end Sys2Proof.Machine
end

section
/-! The invariant: each effect of a step keeps it, and what it says of the common lines and of the words latched (R171,
R172). -/

namespace Sys2Proof.Machine

variable {s t : State}

theorem State.Inv.effect (h : s.Inv) (e : Effect s t) : t.Inv := by
  have noSwap (other : s.hostState ≠ .waitSwap) : s.writeSlot = s.readSlot := h.slots other
  cases e with
  | same => exact h
  | raise lines => exact h.raiseLines lines
  | defer => exact h.deferHandler
  | present w => exact { h with }
  | answer r ready form => exact h.respond (noSwap (by simp [ready])) r
  | writePixel i ch v ready => exact (h.setPixelChannel i ch v).respond (noSwap (by simp [ready])) _
  | compile rot ready =>
    have same := noSwap (by simp [ready])
    exact (h.compile same rot).respond same _
  | swapreq ready => exact h.swapreq
  | release waiting swapped => exact h.respond swapped _
  | hold cb period ready walking legal => exact h.hold (noSwap (by simp [ready])) legal
  | register cb period waiting idle room =>
    have other : s.hostState ≠ .waitSwap := by rcases waiting with ⟨ready, -⟩ | held <;> simp [*]
    have legal : period ≠ 0 := waiting.elim And.right (h.heldPeriod cb period)
    exact (h.prepend idle room (r := ⟨cb, period, s.tick + widenPeriod period⟩) legal).respond (noSwap other) _
  | full cb period waiting idle noRoom => exact h.respond (noSwap (by simp [waiting])) _
  | tick idle => exact h.startWalk
  | walkEnd i walking past => exact walkStep_of_length_le walking past ▸ h.walkStep
  | walkDue i walking inList due => exact Eq.subst (motive := State.Inv) (walkStep_of_le walking inList due) h.walkStep
  | walkPass i walking inList notDue =>
    exact walkStep_of_lt walking inList (BitVec.not_le.mp notDue) ▸ h.walkStep
  | callbackReturn i waiting => exact h.callbackReturn waiting
  | wrap free finished => exact h.wrapGroup free finished
  | issue free unfinished => exact h.issueTransfer free unfinished
  | shift n => exact h.shiftBits n
  | handOver busy => exact { h with doneBusy := fun _ => busy }
  | drain busy sent =>
    exact { h with
      shiftingBusy := by simp
      shifted := fun inFlight _ => h.shifted inFlight (.inr sent) }
  | complete signalled drained => exact h.completeTransfer signalled drained

/-- The bookkeeping of a turn touches nothing the invariant speaks of. -/
theorem State.Inv.bookkeeping (h : s.Inv) (ev : Requests) (agenda : List Turn) (port : List Cmd) (fresh : Nat) :
    State.Inv { s with ev := ev, agenda := agenda, port := port, fresh := fresh } :=
  { h with }

/-- Only SCAN_TICK can stop the machine, and only above step S + D, which R21 excludes. -/
theorem exists_exec_next (i : Instr) (position : s.stepCtr ≤ s.cfg.nStep) : ∃ t, exec i s = .next t := by
  cases i with
  | scanTick =>
    rcases execScanTick_cases s with ⟨-, e⟩ | ⟨-, -, e⟩ | ⟨-, -, e⟩ | ⟨-, above, -⟩
    · exact ⟨_, e⟩
    · exact ⟨_, e⟩
    · exact ⟨_, e⟩
    · omega
  | _ => exact ⟨_, rfl⟩

theorem exists_runCommand_next (position : s.stepCtr ≤ s.cfg.nStep) : ∃ t, runCommand s = .next t := by
  rcases runCommand_cases s with ⟨-, e⟩ | ⟨_, rest, i, -, -, e⟩ | ⟨_, _, _, -, -, e⟩
  · exact ⟨_, e⟩
  · rw [e]
    exact exists_exec_next (s := { s with port := rest }) i position
  · exact ⟨_, e⟩

theorem exists_hostTurn_next (position : s.stepCtr ≤ s.cfg.nStep) : ∃ t, hostTurn s = .next t := by
  unfold hostTurn
  split
  · exact exists_runCommand_next position
  · exact ⟨_, rfl⟩
  · exact ⟨_, rfl⟩

theorem exists_takeTurn_next (a : Turn) (position : s.stepCtr ≤ s.cfg.nStep) : ∃ t, takeTurn a s = .next t := by
  cases a with
  | host => exact exists_hostTurn_next position
  | _ => exact ⟨_, rfl⟩

theorem exists_step_next (position : s.stepCtr ≤ s.cfg.nStep) : ∃ t, step s = .next t := by
  rcases step_cases s with ⟨i, -, e⟩ | ⟨-, e⟩ <;> rw [e]
  · exact exists_exec_next i position
  · exact exists_takeTurn_next _ (by simpa using position)

theorem Config.board_legal : Config.board.Legal := by
  refine ⟨le_rfl, Nat.le_add_left 1 _, ?wire, ?rot⟩
  case wire =>
    rw [Config.board, Vector.toList_ofFn, List.nodup_ofFn]
    exact Config.boardWire.injective.comp (Fin.castLE_injective _)
  case rot =>
    rw [Config.board, Vector.toList_ofFn, List.nodup_ofFn]
    exact Config.boardRot.injective

theorem atMostOneLine_commonDue (s : State) : AtMostOneLine s.commonDue := by
  unfold State.commonDue
  split
  · exact groupLine_exclusive _
  · exact .inl rfl

theorem commonDue_getLsbD_iff (s : State) (g : Group) :
    s.commonDue.getLsbD g.val = true ↔
      g = s.groupCtr ∧ (s.stepCtr ≤ s.cfg.pwmSteps ∨ (s.stepCtr = s.cfg.pwmSteps + 1 ∧ s.xferBusy = true)) := by
  unfold State.commonDue
  split
  next on =>
    rw [groupLine_getLsbD, decide_eq_true_iff, and_iff_left on]
    exact eq_comm
  next off => simp [off]

/-- While the group's line is up the words latched last are of a PWM step, not of a dead-time step. -/
theorem State.latchedStep_lt_pwmSteps {n : Nat} (latched : s.latchedStep = some n)
    (on : s.stepCtr ≤ s.cfg.pwmSteps ∨ (s.stepCtr = s.cfg.pwmSteps + 1 ∧ s.xferBusy = true)) :
    n < s.cfg.pwmSteps ∧ n < s.stepCtr := by
  unfold State.latchedStep at latched
  split at latched
  next _ position free =>
    cases latched
    have within : n + 1 ≤ s.cfg.pwmSteps := by simpa [position, free] using on
    omega
  next _ position busy =>
    cases latched
    rw [position] at on
    omega
  next => cases latched

/-- A bit that is up at the outputs is one of the words latched last. -/
theorem outDue_getLsbD {q : Quadrant} {b : Nat} (up : (s.outDue[q.val]).getLsbD b = true) :
    ∃ n, s.latchedStep = some n ∧
      (s.table.read (s.cfg.addr s.readSlot s.groupCtr n q)).getLsbD b = true := by
  unfold State.outDue at up
  split at up
  next n latched => exact ⟨n, latched, by rwa [State.fetchWords_getElem] at up⟩
  next => simp at up

end Sys2Proof.Machine
end

section
namespace Sys2Proof.Machine

/-- Settles O43: a step is the bookkeeping of its turn and one of the effects, and each of those keeps the invariant. -/
theorem stepKeepsInvariant : Obligations.StepKeepsInvariant := by
  intro s t h stepped
  obtain ⟨ev, agenda, port, fresh, e⟩ := step_effect stepped
  exact (h.bookkeeping ev agenda port fresh).effect e

/-- Settles O44: no agent's turn stops, and of the operations only SCAN_TICK does, above the steps that the invariant
allows. -/
theorem stepNeverStops : Obligations.StepNeverStops := fun _ h =>
  exists_step_next h.position

/-- Settles O42: the reset state of a legal configuration has the invariant, and that of `State.reset` is legal because
its free values are permutations. -/
theorem invariantAtReset : Obligations.InvariantAtReset :=
  ⟨fun _ legal => State.resetWith_inv_of_legal legal, State.resetWith_inv_of_legal Config.board_legal, rfl, rfl⟩

/-- Settles O45: in the invariant COMMON is what the scan position calls for. -/
theorem commonLinesNeverOverlap : Obligations.CommonLinesNeverOverlap := by
  intro s h
  rw [h.lines]
  exact ⟨atMostOneLine_commonDue s, commonDue_getLsbD_iff s⟩

/-- Settles O46: the LED's common line is up, so its group is the current one and the words latched last are of a PWM
step, and its output bit is one of theirs. -/
theorem ledsDrivenByOwnWords : Obligations.LedsDrivenByOwnWords := by
  intro s g q p ch h driven
  obtain ⟨output, line⟩ := Bool.and_eq_true_iff.mp driven
  simp only [h.lines, commonDue_getLsbD_iff] at line
  simp only [h.outputs] at output
  obtain ⟨rfl, on⟩ := line
  obtain ⟨n, latched, bit⟩ := outDue_getLsbD output
  obtain ⟨pwm, issued⟩ := State.latchedStep_lt_pwmSteps latched on
  exact ⟨rfl, n, pwm, issued, bit⟩

end Sys2Proof.Machine
end

section
/-! Frames: what each operation and each agent's turn leaves as it was (R36, R223). -/

namespace Sys2Proof.Machine

variable {s t : State}

/-- What a host command may write (R36): of TABLE the half it compiles to, and of the list a new head. -/
structure CommandFrame (s t : State) : Prop where
  frame : t = { s with
    x := t.x, table := t.table, writeSlot := t.writeSlot, hostState := t.hostState, cblist := t.cblist
    resp := t.resp, trace := t.trace }
  outside : s.table.wf → ∀ a, ¬ s.cfg.inSlot (1 - s.writeSlot) a → t.table.read a = s.table.read a
  prepends : t.cblist = s.cblist ∨ ∃ r, t.cblist = r :: s.cblist

theorem CommandFrame.refl (s : State) : CommandFrame s s := ⟨rfl, fun _ _ _ => rfl, .inl rfl⟩

theorem CommandFrame.respond (s : State) (r : Resp) : CommandFrame s (s.respond r) :=
  ⟨rfl, fun _ _ _ => rfl, .inl rfl⟩

theorem CommandFrame.registerCallback (cb : BitVec 4) (period : BitVec 24) (s : State) :
    CommandFrame s (registerCallback cb period s) := by
  rcases registerCallback_cases cb period s with ⟨-, e⟩ | ⟨-, e⟩ <;> rw [e]
  · exact .respond s _
  · exact ⟨rfl, fun _ _ _ => rfl, .inr ⟨_, rfl⟩⟩

/-- What holds of the state itself and of the state a command makes in Ready holds after acceptance (R200). -/
theorem accept_induction {P : State → Prop} {k : State → State} (blocked : P s) (runs : P (k s)) : P (accept s k) := by
  rcases accept_cases s k with ⟨-, e⟩ | ⟨-, e⟩ <;> rw [e]
  · exact runs
  · exact blocked

theorem CommandFrame.exec {i : Instr} (command : (hostRow i).isSome = true) (e : exec i s = .next t) :
    CommandFrame s t := by
  have accepted {k : State → State} (runs : CommandFrame s (k s)) : CommandFrame s (accept s k) :=
    accept_induction (.refl s) runs
  cases i with
  | nop => cases e; exact accepted (.respond s _)
  | fbwr idx ch val =>
    cases e
    refine accepted ?_
    split
    · exact ⟨rfl, fun _ _ _ => rfl, .inl rfl⟩
    · exact .respond s _
  | compile rot =>
    cases e
    exact accepted ⟨rfl, fun canonical _ other => State.compiledTable_read_other canonical rot other, .inl rfl⟩
  | swapreq => cases e; exact accepted ⟨rfl, fun _ _ _ => rfl, .inl rfl⟩
  | schreg cb period =>
    cases e
    refine accepted ?_
    split
    · exact .respond s _
    · split
      · exact .registerCallback cb period s
      · exact ⟨rfl, fun _ _ _ => rfl, .inl rfl⟩
      · exact ⟨rfl, fun _ _ _ => rfl, .inl rfl⟩
  | tickrd => cases e; exact accepted (.respond s _)
  | schedTick | scanTick | xferDone | cbRet => cases command

theorem registerCallback_table (cb : BitVec 4) (period : BitVec 24) (s : State) :
    (registerCallback cb period s).table = s.table := by
  rcases registerCallback_cases cb period s with ⟨-, e⟩ | ⟨-, e⟩ <;> rw [e] <;> rfl

/-- Of the host commands COMPILE alone writes TABLE (R36). -/
theorem exec_table_of_ne_compile {i : Instr} (command : (hostRow i).isSome = true) (other : ∀ rot, i ≠ .compile rot)
    (e : exec i s = .next t) : t.table = s.table := by
  have accepted {k : State → State} (runs : (k s).table = s.table) : (accept s k).table = s.table :=
    accept_induction (P := fun t => t.table = s.table) rfl runs
  cases i with
  | nop | swapreq | tickrd => cases e; exact accepted rfl
  | fbwr idx ch val =>
    cases e
    refine accepted ?_
    split <;> rfl
  | compile rot => exact absurd rfl (other rot)
  | schreg cb period =>
    cases e
    refine accepted ?_
    split
    · rfl
    · split
      · exact registerCallback_table cb period s
      · rfl
      · rfl
  | schedTick | scanTick | xferDone | cbRet => cases command

theorem releaseSwap_frame (s : State) :
    releaseSwap s = { s with
      hostState := (releaseSwap s).hostState, resp := (releaseSwap s).resp, trace := (releaseSwap s).trace } := by
  rcases releaseSwap_cases s with ⟨-, e⟩ | ⟨-, e⟩ <;> rw [e]
  rfl

theorem registerCallback_frame (cb : BitVec 4) (period : BitVec 24) (s : State) :
    registerCallback cb period s = { s with
      hostState := (registerCallback cb period s).hostState, resp := (registerCallback cb period s).resp
      cblist := (registerCallback cb period s).cblist, trace := (registerCallback cb period s).trace } := by
  rcases registerCallback_cases cb period s with ⟨-, e⟩ | ⟨-, e⟩ <;> rw [e] <;> rfl

theorem resumeSchreg_frame (cb : BitVec 4) (period : BitVec 24) (s : State) :
    resumeSchreg cb period s = { s with
      hostState := (resumeSchreg cb period s).hostState, resp := (resumeSchreg cb period s).resp
      cblist := (resumeSchreg cb period s).cblist, trace := (resumeSchreg cb period s).trace } := by
  rcases resumeSchreg_cases cb period s with ⟨-, e⟩ | ⟨-, e⟩ <;> rw [e]
  exact registerCallback_frame cb period s

theorem resumeSchreg_cblist (cb : BitVec 4) (period : BitVec 24) (s : State) :
    (resumeSchreg cb period s).cblist = s.cblist ∨ ∃ r, (resumeSchreg cb period s).cblist = r :: s.cblist := by
  rcases resumeSchreg_cases cb period s with ⟨-, e⟩ | ⟨-, e⟩ <;> rw [e]
  · exact (CommandFrame.registerCallback cb period s).prepends
  · exact .inl rfl

/-- CB_RET writes of a record its next_fire alone (R123). -/
theorem map_modify_advance (records : List CallbackRecord) (i : Nat) :
    (records.modify i CallbackRecord.advance).map (fun r => (r.cb, r.period)) =
      records.map fun r => (r.cb, r.period) := by
  refine List.ext_getElem? fun j => ?_
  rw [List.getElem?_map, List.getElem?_map, List.getElem?_modify, Option.map_eq_map, Option.map_map]
  refine congrArg (Option.map · _) (funext fun r => ?_)
  by_cases same : i = j <;> simp [same, CallbackRecord.advance]

theorem exec_sched_frame {i : Instr} (event : i = .schedTick ∨ i = .cbRet) (e : exec i s = .next t) :
    t = { s with tick := t.tick, schedState := t.schedState, cblist := t.cblist } ∧
      t.cblist.map (fun r => (r.cb, r.period)) = s.cblist.map fun r => (r.cb, r.period) := by
  rcases event with rfl | rfl <;> cases e
  · split <;> exact ⟨rfl, rfl⟩
  · split
    · exact ⟨rfl, rfl⟩
    · exact ⟨rfl, rfl⟩
    · exact ⟨rfl, map_modify_advance _ _⟩

theorem walkStep_frame (s : State) :
    walkStep s = { s with schedState := (walkStep s).schedState, trace := (walkStep s).trace } := by
  rcases walkStep_cases s with ⟨-, e⟩ | ⟨_, -, -, e⟩ | ⟨_, _, -, -, -, e⟩ | ⟨_, _, -, -, -, e⟩ <;> rw [e]
  rfl

theorem exec_scanTick_frame (e : exec .scanTick s = .next t) :
    t = { s with
      readSlot := t.readSlot, groupCtr := t.groupCtr, stepCtr := t.stepCtr, common := t.common
      xferBusy := t.xferBusy, shiftBusy := t.shiftBusy, bitsSent := t.bitsSent, xferBuf := t.xferBuf
      trace := t.trace } := by
  rcases execScanTick_cases s with ⟨-, h⟩ | ⟨-, -, h⟩ | ⟨-, -, h⟩ | ⟨-, -, h⟩ <;> rw [exec, h] at e <;> cases e
  · rfl
  · rfl
  · rfl

theorem exec_xferDone_frame (e : exec .xferDone s = .next t) :
    t = { s with
      common := t.common, xferBusy := t.xferBusy, xferDone := t.xferDone, handlerLate := t.handlerLate
      out := t.out, trace := t.trace } := by
  cases e
  split
  · rw [completeTransfer_eq]
  · rfl

theorem shiftBits_frame (n : Nat) (s : State) :
    shiftBits n s = { s with
      bitsSent := (shiftBits n s).bitsSent, sr := (shiftBits n s).sr, fresh := (shiftBits n s).fresh
      trace := (shiftBits n s).trace } := by
  rcases shiftBits_cases n s with ⟨-, e⟩ | ⟨-, _, _, -, e⟩ <;> rw [e]

theorem handOverWord_frame (s : State) : handOverWord s = { s with xferDone := (handOverWord s).xferDone } := by
  unfold handOverWord
  split <;> rfl

theorem drainInterface_frame (s : State) :
    drainInterface s = { s with shiftBusy := (drainInterface s).shiftBusy } := by
  unfold drainInterface
  split <;> rfl

end Sys2Proof.Machine
end

section
namespace Sys2Proof.Machine

/-- Settles O53, by the frames of the operations and of the turns. -/
theorem oneWriterForEachElement : Obligations.OneWriterForEachElement := by
  refine ⟨fun i s t command e => ?_, releaseSwap_frame,
    fun s cb period => ⟨resumeSchreg_frame cb period s, resumeSchreg_cblist cb period s⟩,
    fun _ _ _ event e => exec_sched_frame event e, walkStep_frame, fun _ _ e => exec_scanTick_frame e,
    fun _ _ e => exec_xferDone_frame e, fun s n => shiftBits_frame n s, handOverWord_frame, drainInterface_frame⟩
  obtain ⟨frame, outside, prepends⟩ := CommandFrame.exec command e
  exact ⟨frame, fun other => exec_table_of_ne_compile command other e, outside, prepends⟩

end Sys2Proof.Machine
end

section
/-! Who may change TICK, the level of EV[2] and the words at the port: an operation or a turn, one by one (R11, R36). -/

namespace Sys2Proof.Machine

variable {s t : State}

/-- No operation touches the port. -/
theorem exec_port {i : Instr} (e : exec i s = .next t) : t.port = s.port := by
  cases i with
  | nop | fbwr | compile | swapreq | schreg | tickrd => rw [(CommandFrame.exec rfl e).frame]
  | schedTick => rw [(exec_sched_frame (.inl rfl) e).1]
  | cbRet => rw [(exec_sched_frame (.inr rfl) e).1]
  | scanTick => rw [exec_scanTick_frame e]
  | xferDone => rw [exec_xferDone_frame e]

/-- TICK is SCHED_TICK's alone (R27). -/
theorem exec_tick {i : Instr} (other : i ≠ .schedTick) (e : exec i s = .next t) : t.tick = s.tick := by
  cases i with
  | nop | fbwr | compile | swapreq | schreg | tickrd => rw [(CommandFrame.exec rfl e).frame]
  | schedTick => exact absurd rfl other
  | cbRet =>
    cases e
    split <;> rfl
  | scanTick => rw [exec_scanTick_frame e]
  | xferDone => rw [exec_xferDone_frame e]

/-- Of the operations XFER_DONE alone writes xfer_done (R22). -/
theorem exec_xferDone_of_ne {i : Instr} (other : i ≠ .xferDone) (e : exec i s = .next t) :
    t.xferDone = s.xferDone := by
  cases i with
  | nop | fbwr | compile | swapreq | schreg | tickrd => rw [(CommandFrame.exec rfl e).frame]
  | schedTick => rw [(exec_sched_frame (.inl rfl) e).1]
  | cbRet => rw [(exec_sched_frame (.inr rfl) e).1]
  | scanTick => rw [exec_scanTick_frame e]
  | xferDone => exact absurd rfl other

/-- Outside Ready a host command changes nothing (R200). -/
theorem exec_of_blocked {i : Instr} (command : (hostRow i).isSome = true) (blocked : s.hostState ≠ .ready) :
    exec i s = .next s := by
  cases i with
  | nop | fbwr | compile | swapreq | schreg | tickrd => exact congrArg _ (accept_blocked blocked _)
  | schedTick | scanTick | xferDone | cbRet => cases command

/-- What the Host's turn may write: what its commands may, and the port. -/
theorem hostTurn_frame (e : hostTurn s = .next t) :
    t = { s with
      x := t.x, table := t.table, writeSlot := t.writeSlot, hostState := t.hostState, cblist := t.cblist
      resp := t.resp, trace := t.trace, port := t.port } := by
  unfold hostTurn at e
  split at e
  · rcases runCommand_cases s with ⟨-, h⟩ | ⟨w, rest, i, -, decodes, h⟩ | ⟨w, rest, er, -, -, h⟩ <;> rw [h] at e
    · cases e
      rfl
    · rw [(CommandFrame.exec (decode_host_isCommand decodes) e).frame]
    · cases e
      exact accept_induction (P := fun t => t = { s with
        x := t.x, table := t.table, writeSlot := t.writeSlot, hostState := t.hostState, cblist := t.cblist
        resp := t.resp, trace := t.trace, port := t.port }) rfl rfl
  · cases e
    rw [releaseSwap_frame]
  · cases e
    rw [resumeSchreg_frame]

/-- The Host's turn takes the first word at the port at most, and that in Ready (R200). -/
theorem hostTurn_port (e : hostTurn s = .next t) :
    t.port = s.port ∨ (s.hostState = .ready ∧ ∃ w, s.port = w :: t.port) := by
  unfold hostTurn at e
  split at e
  next ready =>
    rcases runCommand_cases s with ⟨-, h⟩ | ⟨w, rest, i, head, -, h⟩ | ⟨w, rest, er, head, -, h⟩ <;> rw [h] at e
    · cases e
      exact .inl rfl
    · exact .inr ⟨ready, w, by rw [head, exec_port e]⟩
    · cases e
      refine .inr ⟨ready, w, head.trans (congrArg _ ?_)⟩
      exact accept_induction (P := fun t => rest = t.port) rfl rfl
  · cases e
    rw [releaseSwap_frame]
    exact .inl rfl
  · cases e
    rw [resumeSchreg_frame]
    exact .inl rfl

theorem takeTurn_port {a : Turn} (e : takeTurn a s = .next t) :
    s.port <+: t.port ∨ (s.hostState = .ready ∧ ∃ w, s.port = w :: t.port) := by
  have kept {u : State} (same : u.port = s.port) : s.port <+: u.port := same ▸ List.prefix_rfl
  cases a with
  | host => exact (hostTurn_port e).imp_left kept
  | present w => cases e; exact .inl (List.prefix_append _ _)
  | raise | defer => cases e; exact .inl List.prefix_rfl
  | walk => cases e; exact .inl (kept (by rw [walkStep_frame]))
  | shift n => cases e; exact .inl (kept (by rw [shiftBits_frame]))
  | handOver => cases e; exact .inl (kept (by rw [handOverWord_frame]))
  | drain => cases e; exact .inl (kept (by rw [drainInterface_frame]))

theorem takeTurn_tick {a : Turn} (e : takeTurn a s = .next t) : t.tick = s.tick := by
  cases a with
  | host => rw [hostTurn_frame e]
  | present | raise | defer => cases e; rfl
  | walk => cases e; rw [walkStep_frame]
  | shift n => cases e; rw [shiftBits_frame]
  | handOver => cases e; rw [handOverWord_frame]
  | drain => cases e; rw [drainInterface_frame]

theorem handOverWord_of_busy (busy : s.xferBusy = true) : handOverWord s = { s with xferDone := true } :=
  if_pos busy

/-- No turn takes xfer_done down (R93). -/
theorem takeTurn_xferDone {a : Turn} (e : takeTurn a s = .next t) (up : s.xferDone = true) : t.xferDone = true := by
  cases a with
  | host => rw [hostTurn_frame e, up]
  | present | raise | defer => cases e; exact up
  | walk => cases e; rw [walkStep_frame, up]
  | shift n => cases e; rw [shiftBits_frame, up]
  | handOver =>
    cases e
    unfold handOverWord
    split
    · rfl
    · exact up
  | drain => cases e; rw [drainInterface_frame, up]

end Sys2Proof.Machine
end

section
namespace Sys2Proof.Machine

/-- Settles O13: a command outside Ready is not accepted, and of the turns the Host's alone takes a word, in Ready,
while a presented word goes behind those that wait. -/
theorem commandsWaitWhileBlocked : Obligations.CommandsWaitWhileBlocked := by
  have port (s t : State) (stepped : step s = .next t) :
      s.port <+: t.port ∨ (s.hostState = .ready ∧ ∃ w, s.port = w :: t.port) := by
    rcases step_cases s with ⟨i, -, e⟩ | ⟨-, e⟩ <;> rw [e] at stepped
    · exact .inl (exec_port stepped ▸ List.prefix_rfl)
    · simpa using takeTurn_port stepped
  refine ⟨fun _ _ command blocked => exec_of_blocked command blocked, fun s t rest quiet turn blocked stepped => ?_,
    fun s t blocked stepped => (port s t stepped).resolve_right (blocked ·.1), port⟩
  rw [step_turn quiet turn] at stepped
  exact (hostTurn_port stepped).resolve_right (blocked ·.1)

/-- Settles O51: no turn and no other event writes TICK, and SCHED_TICK writes it in Idle alone. -/
theorem tickWrittenBySchedTickOnly : Obligations.TickWrittenBySchedTickOnly := by
  intro s t stepped changed
  rcases step_cases s with ⟨i, served, e⟩ | ⟨-, e⟩ <;> rw [e] at stepped
  · by_cases event : i = .schedTick
    · subst event
      by_cases idle : s.schedState = .idle
      · cases (execSchedTick_of_idle (s := s.consumeLine .schedTick) idle).symm.trans stepped
        exact ⟨idle, served, rfl, rfl⟩
      · cases (execSchedTick_of_not_idle (s := s.consumeLine .schedTick) idle).symm.trans stepped
        exact absurd rfl changed
    · exact absurd (exec_tick event stepped) changed
  · exact absurd (by simpa using takeTurn_tick stepped) changed

/-- Settles O59: EV[2] is xfer_done, which the Shifter's hand-over alone puts up and XFER_DONE alone takes down, and the
order of R219 serves XFER_DONE exactly where its handler can run. -/
theorem completionLineHeld : Obligations.CompletionLineHeld := by
  refine ⟨fun s => s.ev.getLsbD_vector s.xferDone, fun s busy => ?raised, fun s t stepped up down => ?taken,
    fun s signalled drained prompt => ?served, fun s waits served => ?held, fun s rest quiet turn => ?deferred,
    fun s => ⟨by rw [handOverWord_frame], by rw [drainInterface_frame]⟩⟩
  case raised => rw [State.lines_level, handOverWord_of_busy busy]
  case taken =>
    rw [State.lines_level] at up down
    rcases step_cases s with ⟨i, served, e⟩ | ⟨-, e⟩ <;> rw [e] at stepped
    · by_cases event : i = .xferDone
      · subst event
        have due : s.completionDue = true := by simpa using decode_due_cases served
        simp only [State.completionDue, Bool.and_eq_true, Bool.not_eq_true'] at due
        exact ⟨served, due.1.2⟩
      · have kept := exec_xferDone_of_ne event stepped
        rw [State.consumeLine_xferDone, up, down] at kept
        cases kept
    · have kept := takeTurn_xferDone stepped (by simpa using up)
      rw [down] at kept
      cases kept
  case served =>
    exact step_event (decode_due_of_completionDue (by simp [State.completionDue, signalled, drained, prompt]))
  case held =>
    have due : s.completionDue = true := by simpa using decode_due_cases served
    rcases waits with waits | waits <;> simp [State.completionDue, waits] at due
  case deferred => exact step_turn quiet turn

end Sys2Proof.Machine
end

section
/-! What the effects of a step do to TABLE, the slots, RESP and the record of outputs. -/

namespace Sys2Proof.Machine

variable {s t : State}

/-! The completion handler and the Shifter, in the fields that they leave alone. -/

@[simp] theorem completeTransfer_cfg (s : State) : (completeTransfer s).cfg = s.cfg := by rw [completeTransfer_eq]
@[simp] theorem completeTransfer_table (s : State) : (completeTransfer s).table = s.table := by
  rw [completeTransfer_eq]
@[simp] theorem completeTransfer_readSlot (s : State) : (completeTransfer s).readSlot = s.readSlot := by
  rw [completeTransfer_eq]
@[simp] theorem completeTransfer_writeSlot (s : State) : (completeTransfer s).writeSlot = s.writeSlot := by
  rw [completeTransfer_eq]
@[simp] theorem completeTransfer_hostState (s : State) : (completeTransfer s).hostState = s.hostState := by
  rw [completeTransfer_eq]
@[simp] theorem completeTransfer_resp (s : State) : (completeTransfer s).resp = s.resp := by
  rw [completeTransfer_eq]
@[simp] theorem shiftBits_cfg (n : Nat) (s : State) : (shiftBits n s).cfg = s.cfg := by rw [shiftBits_frame]
@[simp] theorem shiftBits_table (n : Nat) (s : State) : (shiftBits n s).table = s.table := by rw [shiftBits_frame]
@[simp] theorem shiftBits_readSlot (n : Nat) (s : State) : (shiftBits n s).readSlot = s.readSlot := by
  rw [shiftBits_frame]
@[simp] theorem shiftBits_writeSlot (n : Nat) (s : State) : (shiftBits n s).writeSlot = s.writeSlot := by
  rw [shiftBits_frame]
@[simp] theorem shiftBits_hostState (n : Nat) (s : State) : (shiftBits n s).hostState = s.hostState := by
  rw [shiftBits_frame]
@[simp] theorem shiftBits_resp (n : Nat) (s : State) : (shiftBits n s).resp = s.resp := by rw [shiftBits_frame]

theorem Effect.cfg (e : Effect s t) : t.cfg = s.cfg := by
  cases e with
  | shift n => exact shiftBits_cfg n s
  | complete => exact completeTransfer_cfg s
  | _ => rfl

/-- COMPILE alone writes TABLE, and only in Ready. -/
theorem Effect.table (e : Effect s t) :
    t.table = s.table ∨ (s.hostState = .ready ∧ ∃ rot, t.table = s.compiledTable rot) := by
  cases e with
  | compile rot ready => exact .inr ⟨ready, rot, rfl⟩
  | shift n => exact .inl (shiftBits_table n s)
  | complete => exact .inl (completeTransfer_table s)
  | _ => exact .inl rfl

/-- The wrap alone writes read_slot. -/
theorem Effect.readSlot (e : Effect s t) :
    t.readSlot = s.readSlot ∨ (s.xferBusy = false ∧ s.stepCtr = s.cfg.nStep ∧ t = wrapGroup s) := by
  cases e with
  | wrap free finished => exact .inr ⟨free, finished, rfl⟩
  | shift n => exact .inl (shiftBits_readSlot n s)
  | complete => exact .inl (completeTransfer_readSlot s)
  | _ => exact .inl rfl

/-- A wrap that changes read_slot enters group 0 and leaves no swap pending (R162). -/
theorem wrapGroup_readSlot_of_ne (swapped : (wrapGroup s).readSlot ≠ s.readSlot) :
    s.groupCtr = 2 ∧ (wrapGroup s).groupCtr = 0 ∧ (wrapGroup s).readSlot = s.writeSlot := by
  have last : ∀ g : Group, nextGroup g = 0 → g = 2 := by decide
  rw [wrapGroup_readSlot] at swapped ⊢
  split at swapped
  next enters => exact ⟨last _ enters.1, enters.1, if_pos enters⟩
  next => exact absurd rfl swapped

/-- No swap is pending outside WaitSwap (R193): SWAPREQ makes one pending as it enters WaitSwap, the wrap only ends one,
and WaitSwap ends when none is pending. -/
theorem Effect.noSwapPending (e : Effect s t) (h : s.hostState ≠ .waitSwap → s.writeSlot = s.readSlot) :
    t.hostState ≠ .waitSwap → t.writeSlot = t.readSlot := by
  cases e with
  | answer r ready => exact fun _ => h (by simp [ready])
  | writePixel i ch v ready => exact fun _ => h (by simp [ready])
  | compile rot ready => exact fun _ => h (by simp [ready])
  | swapreq => exact fun other => absurd rfl other
  | release waiting swapped => exact fun _ => swapped
  | hold cb period ready => exact fun _ => h (by simp [ready])
  | register cb period waiting => exact fun _ => h (by rcases waiting with ⟨ready, -⟩ | held <;> simp [*])
  | full cb period waiting => exact fun _ => h (by simp [waiting])
  | wrap =>
    intro other
    rw [wrapGroup_writeSlot, wrapGroup_readSlot]
    split
    · rfl
    · exact h other
  | shift n => simpa using h
  | complete => simpa using h
  | _ => exact h

/-- The responses of R94. -/
theorem Effect.resp (e : Effect s t) :
    t.resp = s.resp ∨ t.resp = ⟨0, 0⟩ ∨ t.resp = ⟨0, s.tick⟩ ∨ t.resp = ⟨1, 0⟩ ∨ t.resp = ⟨2, 0⟩ := by
  cases e with
  | answer r ready form => exact .inr (by rcases form with rfl | rfl | rfl | ⟨rfl, -⟩ <;> simp)
  | writePixel | compile | release | register => exact .inr (.inl rfl)
  | full => exact .inr (.inr (.inr (.inr rfl)))
  | shift n => exact .inl (shiftBits_resp n s)
  | complete => exact .inl (completeTransfer_resp s)
  | _ => exact .inl rfl

/-- Outputs are added at the end, and a value driven on the common-enable lines is the one that COMMON then has. -/
theorem Effect.trace (e : Effect s t) :
    ∃ new, t.trace = s.trace ++ new ∧ ∀ v, Output.common v ∈ new → v = t.common := by
  cases e with
  | answer | writePixel | compile | release | register | full => exact ⟨[.done _], rfl, by simp⟩
  | walkDue i walking inList due => exact ⟨[.cbInvoke _], rfl, by simp⟩
  | wrap => exact ⟨[.common _], rfl, by simp⟩
  | shift n =>
    rcases shiftBits_cases n s with ⟨-, e⟩ | ⟨-, _, _, -, e⟩ <;> rw [e]
    · exact ⟨[], by simp, by simp⟩
    · exact ⟨_, rfl, by simp⟩
  | complete =>
    rw [completeTransfer_eq]
    refine ⟨_, rfl, ?_⟩
    split <;> simp
  | _ => exact ⟨[], by simp, by simp⟩

end Sys2Proof.Machine
end

section
namespace Sys2Proof.Machine

/-- Settles O47: COMPILE alone writes TABLE, and a run of writes keeps the canonical form. -/
theorem stepKeepsTableCanonical : Obligations.StepKeepsTableCanonical := by
  intro s t canonical stepped
  obtain ⟨_, _, _, _, e⟩ := step_effect stepped
  rcases e.table with same | ⟨-, rot, compiled⟩
  · rwa [same]
  · rw [compiled]
    exact State.compiledTable_wf (s := { s with ev := _, agenda := _, port := _, fresh := _ }) canonical rot

/-- Settles O48, effect by effect. -/
theorem noSwapPendingOutsideWait : Obligations.NoSwapPendingOutsideWait := by
  intro s t h stepped
  obtain ⟨_, _, _, _, e⟩ := step_effect stepped
  exact e.noSwapPending h

/-- Settles O49: COMPILE alone writes TABLE, in Ready, where the slot being read is not its target. -/
theorem readSlotNeverWritten : Obligations.ReadSlotNeverWritten := by
  intro s t a canonical noSwap stepped inRead
  obtain ⟨_, _, _, _, e⟩ := step_effect stepped
  rcases e.table with same | ⟨ready, rot, compiled⟩
  · rw [same]
  · have target : s.readSlot ≠ s.compileTarget := by
      rw [State.compileTarget, noSwap (by simp [show s.hostState = .ready from ready])]
      exact (one_sub_slot_ne _).symm
    rw [compiled]
    exact State.compiledTable_read_other (s := { s with ev := _, agenda := _, port := _, fresh := _ }) canonical rot
      (Config.inSlot_disjoint target inRead)

/-- Settles O50: the wrap alone writes read_slot, and only on its way into group 0. -/
theorem swapOnlyAtCycleEnd : Obligations.SwapOnlyAtCycleEnd := by
  intro s t stepped changed
  obtain ⟨_, _, _, _, e⟩ := step_effect stepped
  obtain ⟨free, finished, rfl⟩ := e.readSlot.resolve_left changed
  obtain ⟨last, first, swapped⟩ := wrapGroup_readSlot_of_ne changed
  exact ⟨last, finished, free, first, rfl, swapped, rfl, rfl⟩

/-- Settles O52, effect by effect. -/
theorem configurationNeverWritten : Obligations.ConfigurationNeverWritten := by
  intro s t stepped
  obtain ⟨_, _, _, _, e⟩ := step_effect stepped
  exact e.cfg

/-- Settles O55: what a step drives on the common-enable lines is COMMON after it, of which the invariant, kept by the
step, allows one line. -/
theorem outputsOnlyGrow : Obligations.OutputsOnlyGrow := by
  intro s t stepped
  obtain ⟨_, _, _, _, e⟩ := step_effect stepped
  obtain ⟨new, grown, driven⟩ := e.trace
  refine ⟨new, grown, fun h v output => ?_⟩
  rw [driven v output]
  exact (commonLinesNeverOverlap t (stepKeepsInvariant s t h stepped)).1

/-- Settles O56: RESP stays, or is one of the responses of R94. -/
theorem responseStatusLegal : Obligations.ResponseStatusLegal := by
  intro s t legal stepped
  obtain ⟨_, _, _, _, e⟩ := step_effect stepped
  rcases e.resp with same | new | new | new | new
  · rwa [same]
  all_goals
    rw [new]
    simp

end Sys2Proof.Machine
end

section
/-! The Shifter's turns in a transfer (R164, R165), and the rounds of SCAN_TICK with its transfer (R103, R169). -/

namespace Sys2Proof.Machine

variable {s t : State}

theorem shiftBits_of_idle (n : Nat) (idle : s.shiftBusy = false ∨ transferBits ≤ s.bitsSent) : shiftBits n s = s :=
  if_neg fun ⟨busy, left, _⟩ => idle.elim (by simp [busy]) (by omega)

/-- A turn that sends all the bits that are left ends the transfer's stream with SR complete. -/
theorem shiftBits_of_rest {n : Nat} (busy : s.shiftBusy = true) (left : s.bitsSent < transferBits)
    (enough : transferBits ≤ s.bitsSent + n) :
    shiftBits n s = { s with
      bitsSent := transferBits
      sr := s.xferBuf
      trace := s.trace ++ (List.range' s.bitsSent (transferBits - s.bitsSent)).map
        fun k => .sdata (serialBit s.xferBuf k) } := by
  have count : min n (transferBits - s.bitsSent) = transferBits - s.bitsSent := by omega
  have sent : s.bitsSent + (transferBits - s.bitsSent) = transferBits := by omega
  rw [shiftBits, if_pos ⟨busy, left, by omega⟩]
  simp only [count, sent, if_true]

theorem drainInterface_of_sent (busy : s.shiftBusy = true) (sent : s.bitsSent = transferBits) :
    drainInterface s = { s with shiftBusy := false } :=
  if_pos ⟨busy, sent⟩

theorem drainInterface_of_idle (idle : s.shiftBusy = false) : drainInterface s = s :=
  if_neg (by simp [idle])

theorem handOverWord_of_free (free : s.xferBusy = false) : handOverWord s = s :=
  if_neg (by simp [free])

/-- No transfer is in flight and no completion stands. -/
structure State.Quiet (s : State) : Prop where
  free : s.xferBusy = false
  notDone : s.xferDone = false
  notShifting : s.shiftBusy = false

/-- The transfer of R103 from its issue to the end of its completion handler. -/
def finishTransfer (s : State) : State :=
  completeTransfer { s with
    bitsSent := transferBits
    sr := s.xferBuf
    trace := s.trace ++ (List.range' 0 transferBits).map fun k => .sdata (serialBit s.xferBuf k)
    xferDone := true
    shiftBusy := false }

theorem finishTransfer_quiet (s : State) : (finishTransfer s).Quiet := by
  rw [finishTransfer, completeTransfer_eq]
  exact ⟨rfl, rfl, rfl⟩

theorem finishTransfer_position (s : State) :
    (finishTransfer s).groupCtr = s.groupCtr ∧ (finishTransfer s).stepCtr = s.stepCtr := by
  rw [finishTransfer, completeTransfer_eq]
  exact ⟨rfl, rfl⟩

/-- The round of a SCAN_TICK that issues a transfer. -/
theorem scanRound_of_lt (quiet : s.Quiet) (within : s.stepCtr < s.cfg.nStep) :
    scanRound s = .next (finishTransfer (issueTransfer s)) := by
  have shifted := shiftBits_of_rest (s := issueTransfer s) (n := transferBits) rfl
    (show 0 < transferBits by decide) (by simp)
  rw [scanRound, exec, execScanTick_of_lt quiet.free within, andThen, shifted, handOverWord_of_busy rfl,
    drainInterface_of_sent rfl rfl, exec, execXferDone_of_drained rfl rfl]
  rfl

/-- The round of a SCAN_TICK that wraps: no transfer follows (R162). -/
theorem scanRound_of_eq (quiet : s.Quiet) (last : s.stepCtr = s.cfg.nStep) : scanRound s = .next (wrapGroup s) := by
  have free : (wrapGroup s).xferBusy = false := quiet.free
  have notDone : (wrapGroup s).xferDone = false := quiet.notDone
  have notShifting : (wrapGroup s).shiftBusy = false := quiet.notShifting
  rw [scanRound, exec, execScanTick_of_eq quiet.free last, andThen, shiftBits_of_idle _ (.inl notShifting),
    handOverWord_of_free free, drainInterface_of_idle notShifting, exec, execXferDone_of_waiting (.inl notDone)]

/-- One round of the scan driver moves the scan position by one of the S + D + 1 ticks of a group (R169). -/
structure ScanMove (s t : State) : Prop where
  quiet : t.Quiet
  cfg : t.cfg = s.cfg
  writeSlot : t.writeSlot = s.writeSlot
  move : (s.stepCtr < s.cfg.nStep ∧ t.stepCtr = s.stepCtr + 1 ∧ t.groupCtr = s.groupCtr ∧ t.readSlot = s.readSlot) ∨
    (s.stepCtr = s.cfg.nStep ∧ t.stepCtr = 0 ∧ t.groupCtr = nextGroup s.groupCtr ∧
      t.readSlot = if nextGroup s.groupCtr = 0 then s.writeSlot else s.readSlot)

theorem exists_scanMove (quiet : s.Quiet) (position : s.stepCtr ≤ s.cfg.nStep) :
    ∃ t, scanRound s = .next t ∧ ScanMove s t := by
  rcases position.lt_or_eq with within | last
  · obtain ⟨group, step⟩ := finishTransfer_position (issueTransfer s)
    exact ⟨_, scanRound_of_lt quiet within, finishTransfer_quiet _, completeTransfer_cfg _,
      completeTransfer_writeSlot _, .inl ⟨within, step, group, completeTransfer_readSlot _⟩⟩
  · refine ⟨_, scanRound_of_eq quiet last, ⟨quiet.free, quiet.notDone, quiet.notShifting⟩, rfl, rfl,
      .inr ⟨last, rfl, rfl, ?_⟩⟩
    rw [wrapGroup_readSlot]
    by_cases pending : s.writeSlot = s.readSlot <;> simp [State.swapPending, pending]

theorem ScanMove.position (m : ScanMove s t) : t.stepCtr ≤ t.cfg.nStep := by
  rw [m.cfg]
  rcases m.move with ⟨within, step, -⟩ | ⟨-, step, -⟩ <;> omega

theorem scanRounds_succ (round : scanRound s = .next t) (k : Nat) : scanRounds (k + 1) s = scanRounds k t := by
  rw [scanRounds, round, andThen]

theorem exists_scanRounds (k : Nat) (quiet : s.Quiet) (position : s.stepCtr ≤ s.cfg.nStep) :
    ∃ t, scanRounds k s = .next t ∧ t.Quiet ∧ t.stepCtr = (s.stepCtr + k) % (s.cfg.nStep + 1) ∧
      t.groupCtr.val = (s.groupCtr.val + (s.stepCtr + k) / (s.cfg.nStep + 1)) % 3 := by
  induction k generalizing s with
  | zero =>
    refine ⟨s, rfl, quiet, (Nat.mod_eq_of_lt (by omega)).symm, ?_⟩
    rw [Nat.div_eq_of_lt (by omega)]
    omega
  | succ k ih =>
    obtain ⟨t, round, m⟩ := exists_scanMove quiet position
    obtain ⟨u, rounds, quiet', step, group⟩ := ih m.quiet m.position
    refine ⟨u, (scanRounds_succ round k).trans rounds, quiet', ?_⟩
    rw [step, group, m.cfg]
    rcases m.move with ⟨-, step', group', -⟩ | ⟨last, step', group', -⟩
    · rw [step', group', Nat.add_right_comm, Nat.add_assoc]
      exact ⟨rfl, rfl⟩
    · have whole : s.stepCtr + (k + 1) = k + (s.cfg.nStep + 1) := by omega
      rw [step', group', nextGroup_val, whole, Nat.zero_add, Nat.add_mod_right, 
        Nat.add_div_right k (show 0 < s.cfg.nStep + 1 by omega)]
      omega

/-- The ticks from here to the last one before group 0. -/
def State.ticksToCycleEnd (s : State) : Nat := (2 - s.groupCtr.val) * (s.cfg.nStep + 1) + (s.cfg.nStep - s.stepCtr)

theorem ticksToCycleEnd_lt (s : State) : s.ticksToCycleEnd < 3 * (s.cfg.nStep + 1) := by
  have groups : (2 - s.groupCtr.val) * (s.cfg.nStep + 1) ≤ 2 * (s.cfg.nStep + 1) := Nat.mul_le_mul_right _ (by omega)
  unfold State.ticksToCycleEnd
  omega

theorem nextGroup_eq_zero_iff (g : Group) : nextGroup g = 0 ↔ g = 2 := by
  revert g
  decide

theorem ScanMove.of_cycleEnd (m : ScanMove s t) (h : s.ticksToCycleEnd = 0) :
    t.readSlot = s.writeSlot ∧ t.groupCtr = 0 ∧ t.stepCtr = 0 := by
  obtain ⟨groups, ticks⟩ := Nat.add_eq_zero_iff.mp h
  have group : 2 - s.groupCtr.val = 0 := (Nat.mul_eq_zero.mp groups).resolve_right (Nat.succ_ne_zero _)
  have enters := (nextGroup_eq_zero_iff s.groupCtr).mpr (Fin.ext (show s.groupCtr.val = 2 by omega))
  rcases m.move with ⟨within, -⟩ | ⟨-, step', group', slot⟩
  · omega
  · exact ⟨slot.trans (if_pos enters), group'.trans enters, step'⟩

theorem ScanMove.of_succ (m : ScanMove s t) {n : Nat} (h : s.ticksToCycleEnd = n + 1) :
    t.readSlot = s.readSlot ∧ t.ticksToCycleEnd = n := by
  unfold State.ticksToCycleEnd at h ⊢
  rcases m.move with ⟨within, step', group', slot⟩ | ⟨last, step', group', slot⟩
  · refine ⟨slot, ?_⟩
    rw [step', group', m.cfg]
    omega
  · have notLast : s.groupCtr ≠ 2 := by
      intro group
      rw [last, group] at h
      simp at h
    refine ⟨slot.trans (if_neg (mt (nextGroup_eq_zero_iff _).mp notLast)), ?_⟩
    have next : (nextGroup s.groupCtr).val = s.groupCtr.val + 1 := by
      have := Fin.val_ne_of_ne notLast
      rw [nextGroup_val]
      omega
    have groups : 2 - s.groupCtr.val = (2 - (s.groupCtr.val + 1)) + 1 := by omega
    rw [last, groups, Nat.add_one_mul] at h
    rw [step', group', m.cfg, next]
    omega

theorem exists_swap (quiet : s.Quiet) (position : s.stepCtr ≤ s.cfg.nStep) {n : Nat} (h : s.ticksToCycleEnd = n) :
    (∀ k, k ≤ n → ∃ t, scanRounds k s = .next t ∧ t.readSlot = s.readSlot ∧ t.writeSlot = s.writeSlot) ∧
      ∃ t, scanRounds (n + 1) s = .next t ∧ t.readSlot = s.writeSlot ∧ t.groupCtr = 0 ∧ t.stepCtr = 0 := by
  obtain ⟨t, round, m⟩ := exists_scanMove quiet position
  induction n generalizing s t with
  | zero =>
    refine ⟨fun k none => ?_, t, (scanRounds_succ round 0).trans rfl, m.of_cycleEnd h⟩
    obtain rfl : k = 0 := by omega
    exact ⟨s, rfl, rfl, rfl⟩
  | succ n ih =>
    obtain ⟨slot, left⟩ := m.of_succ h
    obtain ⟨u, round', m'⟩ := exists_scanMove m.quiet m.position
    obtain ⟨before, u, swapped, swap⟩ := ih m.quiet m.position left u round' m'
    rw [m.writeSlot] at swap
    refine ⟨fun k within => ?_, u, (scanRounds_succ round _).trans swapped, swap⟩
    cases k with
    | zero => exact ⟨s, rfl, rfl, rfl⟩
    | succ k =>
      obtain ⟨v, rounds, read, write⟩ := before k (by omega)
      exact ⟨v, (scanRounds_succ round k).trans rounds, read.trans slot, write.trans m.writeSlot⟩

end Sys2Proof.Machine
end

section
namespace Sys2Proof.Machine

/-- Settles O36: each of the two signals leaves the other's condition as it was. -/
theorem shifterFinishesInEitherOrder : Obligations.ShifterFinishesInEitherOrder := by
  intro s inFlight busy sent
  constructor
  · rw [handOverWord_of_busy inFlight]
    exact drainInterface_of_sent (s := { s with xferDone := true }) busy sent
  · rw [drainInterface_of_sent busy sent]
    exact handOverWord_of_busy (s := { s with shiftBusy := false }) inFlight

/-- Settles O38: the handler waits for both signals, and a SCAN_TICK for the transfer. -/
theorem stalledTransferHangs : Obligations.StalledTransferHangs := fun _ inFlight stalled =>
  ⟨execXferDone_of_waiting stalled.symm, execScanTick_of_busy inFlight⟩

/-- Settles O39, by induction on the ticks, each of which moves the position by one. -/
theorem scanPositionAfterTicks : Obligations.ScanPositionAfterTicks := by
  intro s k free notDone notShifting start
  obtain ⟨t, rounds, quiet, step, group⟩ := exists_scanRounds k ⟨free, notDone, notShifting⟩ (by omega)
  rw [start, Nat.zero_add] at step group
  exact ⟨t, rounds, quiet.free, quiet.notDone, quiet.notShifting, step, group⟩

/-- Settles O40: the swap is made at the end of the ticks that are left of the cycle. -/
theorem swapWithinOneCycle : Obligations.SwapWithinOneCycle := by
  intro s free notDone notShifting position
  exact ⟨s.ticksToCycleEnd, ticksToCycleEnd_lt s, exists_swap ⟨free, notDone, notShifting⟩ position rfl⟩

end Sys2Proof.Machine
end

section
/-! The stream of a transfer (R105, R164): the bits of one turn, and of turns that add up to the whole transfer. -/

namespace Sys2Proof.Machine

variable {s : State}

/-- Bit 16 q + k of a transfer is bit 15 - k of its word q (R105). -/
theorem serialBit_quadrant (buf : Vector Word 4) (q : Quadrant) {k : Nat} (hk : k < 16) :
    serialBit buf (16 * q.val + k) = (buf[q.val]).getLsbD (15 - k) := by
  have word : (16 * q.val + k) / 16 = q.val := by omega
  have bit : (16 * q.val + k) % 16 = k := by omega
  rw [serialBit, word, bit]
  simp [List.getD_eq_getElem?_getD]

/-- The bits of a transfer from number `first`, `count` of them. -/
def streamBits (buf : Vector Word 4) (first count : Nat) : List Bool :=
  (List.range' first count).map (serialBit buf)

theorem streamBits_length (buf : Vector Word 4) (first count : Nat) : (streamBits buf first count).length = count := by
  simp [streamBits]

theorem streamBits_getElem? (buf : Vector Word 4) {first count : Nat} (q : Quadrant) {k : Nat} (hk : k < 16)
    (started : first ≤ 16 * q.val + k) (before : 16 * q.val + k < first + count) :
    (streamBits buf first count)[16 * q.val + k - first]? = some ((buf[q.val]).getLsbD (15 - k)) := by
  have place : first + (16 * q.val + k - first) = 16 * q.val + k := by omega
  rw [streamBits, List.getElem?_map, List.getElem?_range' (by omega), Nat.one_mul, place, Option.map_some,
    serialBit_quadrant buf q hk]

theorem streamBits_append (buf : Vector Word 4) (first m n : Nat) :
    streamBits buf first m ++ streamBits buf (first + m) n = streamBits buf first (m + n) := by
  rw [streamBits, streamBits, streamBits, ← List.map_append, ← List.range'_append, Nat.one_mul]

/-- One turn of the Shifter in a transfer, a turn of no bits included (R164). -/
theorem exists_shiftBits_eq (n : Nat) (busy : s.shiftBusy = true) (sent : s.bitsSent ≤ transferBits) :
    ∃ sr fresh,
      (0 < min n (transferBits - s.bitsSent) → s.bitsSent + min n (transferBits - s.bitsSent) = transferBits →
        sr = s.xferBuf) ∧
      shiftBits n s = { s with
        bitsSent := s.bitsSent + min n (transferBits - s.bitsSent)
        sr := sr
        fresh := fresh
        trace := s.trace ++
          (streamBits s.xferBuf s.bitsSent (min n (transferBits - s.bitsSent))).map .sdata } := by
  rcases shiftBits_cases n s with ⟨nothing, e⟩ | ⟨-, sr, fresh, complete, e⟩
  · have none : min n (transferBits - s.bitsSent) = 0 := by
      by_contra some
      exact nothing ⟨busy, by omega, by omega⟩
    refine ⟨s.sr, s.fresh, fun some => absurd none some.ne', ?_⟩
    rw [e, none]
    simp [streamBits]
  · refine ⟨sr, fresh, fun _ => complete, ?_⟩
    rw [e, streamBits, List.map_map]
    rfl

theorem foldl_shiftBits_of_sent (turns : List Nat) (sent : transferBits ≤ s.bitsSent) :
    turns.foldl (fun s n => shiftBits n s) s = s := by
  induction turns with
  | nil => rfl
  | cons n turns ih => rw [List.foldl_cons, shiftBits_of_idle n (.inr sent), ih]

/-- Turns that add up to what is left of a transfer send just that, however it is split (R164). -/
theorem exists_foldl_shiftBits_eq (turns : List Nat) (busy : s.shiftBusy = true) (left : s.bitsSent < transferBits)
    (enough : transferBits ≤ s.bitsSent + turns.sum) :
    ∃ fresh, turns.foldl (fun s n => shiftBits n s) s = { s with
      bitsSent := transferBits
      sr := s.xferBuf
      fresh := fresh
      trace := s.trace ++ (streamBits s.xferBuf s.bitsSent (transferBits - s.bitsSent)).map .sdata } := by
  induction turns generalizing s with
  | nil =>
    rw [List.sum_nil] at enough
    omega
  | cons n turns ih =>
    rw [List.sum_cons] at enough
    obtain ⟨sr, fresh, complete, e⟩ := exists_shiftBits_eq n busy left.le
    rw [List.foldl_cons, e]
    by_cases last : transferBits ≤ s.bitsSent + n
    · have count : min n (transferBits - s.bitsSent) = transferBits - s.bitsSent := by omega
      have sent : s.bitsSent + (transferBits - s.bitsSent) = transferBits := by omega
      rw [count] at complete ⊢
      rw [foldl_shiftBits_of_sent turns sent.ge, complete (by omega) sent, sent]
      exact ⟨fresh, rfl⟩
    · have count : min n (transferBits - s.bitsSent) = n := by omega
      have rest : n + (transferBits - (s.bitsSent + n)) = transferBits - s.bitsSent := by omega
      rw [count]
      obtain ⟨fresh', e'⟩ := ih (s := { s with bitsSent := s.bitsSent + n, sr := sr, fresh := fresh, trace := _ })
        busy (show s.bitsSent + n < transferBits by omega) (show transferBits ≤ s.bitsSent + n + turns.sum by omega)
      refine ⟨fresh', e'.trans ?_⟩
      rw [← rest, ← streamBits_append, List.map_append, ← List.append_assoc]

end Sys2Proof.Machine
end

section
namespace Sys2Proof.Machine

/-- Settles O35: a turn sends the next bits of the stream, and by induction turns that add up to the transfer send the
stream whole. -/
theorem serialStream : Obligations.SerialStream := by
  refine ⟨fun s n idle => shiftBits_of_idle n idle, fun s n busy sent => ?turn, fun s turns busy start enough => ?whole⟩
  case turn =>
    intro count t
    obtain ⟨sr, fresh, complete, e⟩ := exists_shiftBits_eq n busy sent
    have turn : t = _ := e
    rw [turn]
    refine ⟨rfl, complete, streamBits s.xferBuf s.bitsSent count, rfl, streamBits_length _ _ _,
      fun q k hk started before => ?_⟩
    exact streamBits_getElem? s.xferBuf q hk started before
  case whole =>
    intro t
    have left : s.bitsSent < transferBits := by rw [start]; decide
    obtain ⟨fresh, e⟩ := exists_foldl_shiftBits_eq turns busy left (by rw [start, Nat.zero_add]; exact enough)
    have whole : t = _ := e
    rw [whole, start]
    refine ⟨rfl, streamBits s.xferBuf 0 64, rfl, streamBits_length _ _ _, fun q k hk => ?_⟩
    exact streamBits_getElem? s.xferBuf q hk (Nat.zero_le _) (by omega)

/-- Settles O30: the walk leaves each record as the tick makes it and starts the callbacks of those that are due, in
list order, and it ends in Idle, where the round began. -/
theorem callbacksInListOrder : Obligations.CallbacksInListOrder := by
  intro s idle
  rw [schedRound_of_idle idle, ← idle]
  rfl

end Sys2Proof.Machine
end

section
/-! The threshold (R144), the number of steps at which a channel is on (R146), and what a second COMPILE or FBWR finds
(R69). -/

namespace Sys2Proof

theorem Config.thr_mono (c : Config) {v w : Level} (h : v ≤ w) : c.thr v ≤ c.thr w := by
  rw [Config.thr_eq_div, Config.thr_eq_div]
  exact Nat.div_le_div_right (BitVec.le_def.mp h)

/-- The brightest value is off at the last PWM step alone: 255 is the last of the S blocks of 2^SHIFT values. -/
theorem Config.thr_max (c : Config) : c.thr 255 = c.pwmSteps - 1 := by
  have blocks := c.pwmSteps_mul
  have pos := c.pwmSteps_pos
  have width : 0 < 2 ^ c.shift := by positivity
  rw [Config.thr_eq_div]
  refine Nat.div_eq_of_lt_le ?_ ?_
  · rw [Nat.sub_one_mul, blocks]
    show 256 - 2 ^ c.shift ≤ 255
    omega
  · rw [Nat.sub_add_cancel pos, blocks]
    decide

theorem Config.thr_of_pwmSteps_eq_max {c : Config} (full : c.pwmSteps = 256) (v : Level) : c.thr v = v.toNat := by
  have blocks := c.pwmSteps_mul
  have one : 2 ^ c.shift = 1 := by
    rw [full] at blocks
    omega
  rw [Config.thr_eq_div, one, Nat.div_one]

theorem length_filter_range_lt {m n : Nat} (h : m ≤ n) :
    ((List.range n).filter fun k => decide (k < m)).length = m := by
  obtain ⟨k, rfl⟩ := Nat.exists_eq_add_of_le h
  have below : (List.range m).filter (fun j => decide (j < m)) = List.range m :=
    List.filter_eq_self.mpr fun j hj => by simpa using hj
  rw [List.range_add, List.filter_append, below]
  simp

theorem setChannelOfPixel_setChannelOfPixel (v : Pixel) (ch : Channel) (l : Level) :
    setChannelOfPixel (setChannelOfPixel v ch l) ch l = setChannelOfPixel v ch l := by
  refine pixel_ext fun ch' => ?_
  by_cases same : ch' = ch <;> simp [same]

end Sys2Proof

namespace Sys2Proof.Machine

variable {s : State}

/-- The word function reads the framebuffer and the configuration, and no word of TABLE (R142). -/
theorem State.tableWord_congr {t : State} (x : t.x = s.x) (cfg : t.cfg = s.cfg) (g : Group) (step : Nat) (q : Quadrant)
    (rot : Bool) : t.tableWord g step q rot = s.tableWord g step q rot := by
  cases s
  cases t
  cases x
  cases cfg
  rfl

/-- So the loops of R141, run again on what they left, write what stands there (R69). -/
theorem State.compiledTable_eq_table {t : State} {rot : Bool} (canonical : s.table.wf)
    (table : t.table = s.compiledTable rot) (x : t.x = s.x) (cfg : t.cfg = s.cfg)
    (writeSlot : t.writeSlot = s.writeSlot) :
    t.compiledTable rot = t.table := by
  have canonical' : t.table.wf := table ▸ State.compiledTable_wf canonical rot
  refine Memory.ext_of_read (State.compiledTable_wf canonical' rot) canonical' fun a => ?_
  rcases State.compiledTable_read_cases canonical' rot a with ⟨g, step, q, inGroup, rfl, e⟩ | ⟨-, e⟩
  · rw [e, table, State.tableWord_congr x cfg, cfg, State.compileTarget, writeSlot]
    exact (State.compiledTable_read_target canonical rot g (cfg ▸ inGroup) q).symm
  · exact e

theorem setPixelChannel_setPixelChannel (s : State) (i : Fin 60) (ch : Channel) (v : Level) (resp : Resp) :
    (((s.setPixelChannel i ch v).respond resp).setPixelChannel i ch v) = (s.setPixelChannel i ch v).respond resp := by
  simp [State.setPixelChannel, State.respond, setChannelOfPixel_setChannelOfPixel]

/-- A second end of a command with the same response adds its signal alone. -/
theorem respond_respond (s : State) (r : Resp) :
    (s.respond r).respond r = { s.respond r with trace := ((s.respond r).respond r).trace } := rfl

end Sys2Proof.Machine
end

section
namespace Sys2Proof.Machine

/-- Settles O18, by the laws of the threshold and the bits of the word function. -/
theorem thresholdPrefix : Obligations.ThresholdPrefix := by
  refine ⟨fun s g step q rot p ch legal pwm => ?_, fun c _ _ => c.thr_mono, Config.thr_le_pred_pwmSteps,
    fun c _ => c.thr_max, fun c v one => ?_, fun c v full => Config.thr_of_pwmSteps_eq_max full v⟩
  · rw [State.tableWord_wire legal, decide_eq_true pwm, Bool.true_and, State.channelOn_eq_true_iff, Config.thr_eq_div,
      Nat.shiftRight_eq_div_pow]
    rfl
  · have := c.thr_lt v
    omega

/-- Settles O19: the steps at which a channel's bit is set are those below thr(V), so their number is the quotient of V
by 2^SHIFT. -/
theorem compileRoundTrip : Obligations.CompileRoundTrip := by
  intro s t rot g q p ch legal ready canonical compiled v n
  cases (execCompile_of_ready ready rot).symm.trans compiled
  let level := channelOfPixel s.x[(s.cfg.src (phys g q p) rot).val] ch
  have on (step : Nat) (pwm : step < s.cfg.pwmSteps) :
      ((s.compiledTable rot).read (s.cfg.addr s.compileTarget g step q)).getLsbD (s.cfg.wireMap p ch).val =
        decide (step < s.cfg.thr level) := by
    have inGroup := pwm.trans (Config.pwmSteps_lt_nStep legal)
    rw [State.compiledTable_read_target canonical rot g inGroup q, State.tableWord_wire legal, decide_eq_true pwm,
      Bool.true_and, State.channelOn]
  have count : n = v / 2 ^ s.cfg.shift :=
    calc
      n = ((List.range s.cfg.pwmSteps).filter fun step => decide (step < s.cfg.thr level)).length :=
        congrArg List.length (List.filter_congr fun step pwm => on step (List.mem_range.mp pwm))
      _ = s.cfg.thr level := length_filter_range_lt (s.cfg.thr_lt level).le
      _ = v / 2 ^ s.cfg.shift := s.cfg.thr_eq_div level
  rw [count, ← Nat.add_one_mul]
  exact ⟨Nat.div_mul_le_self v _, Nat.lt_mul_of_div_lt (Nat.lt_succ_self _) (by positivity)⟩

/-- Settles O20: a second COMPILE writes the words that stand there, and a second FBWR the channel that stands there. -/
theorem compileAndFbwrIdempotent : Obligations.CompileAndFbwrIdempotent := by
  constructor
  · intro s t u rot ready canonical first second
    cases (execCompile_of_ready ready rot).symm.trans first
    cases (execCompile_of_ready rfl rot).symm.trans second
    let after : State := { s with table := s.compiledTable rot }.respondOk
    have again : after.compiledTable rot = after.table := State.compiledTable_eq_table canonical rfl rfl rfl rfl
    exact congrArg (fun m => State.respondOk { after with table := m }) again
  · intro s t u idx ch v ready first second
    rcases Nat.lt_or_ge idx.toNat 60 with inRange | outside
    · cases (execFbwr_of_lt ready inRange ch v).symm.trans first
      cases (execFbwr_of_lt rfl inRange ch v).symm.trans second
      rw [State.respondOk, State.respondOk, setPixelChannel_setPixelChannel]
      rfl
    · cases (execFbwr_of_le ready outside ch v).symm.trans first
      cases (execFbwr_of_le rfl outside ch v).symm.trans second
      rfl

end Sys2Proof.Machine
end

section
/-! Which operation a step runs: the event served first, the word at the port, and the code placed for it (R200,
R219). -/

namespace Sys2Proof.Machine

variable {s : State}

/-- With no event to serve, the Host's turn in Ready runs the operation of the first word at the port. -/
theorem step_command {i : Instr} {w : Cmd} {ws : List Cmd} {rest : List Turn} (quiet : s.due = 0)
    (turn : s.agenda = .host :: rest) (ready : s.hostState = .ready) (head : s.port = w :: ws)
    (decodes : decode (.host w) = .ok i) : step s = exec i { s with agenda := rest, port := ws } := by
  rw [step_host_of_ready quiet turn ready]
  simp only [runCommand, head, decodes]

theorem withFetchWord_host (s : State) (w : Cmd) : s.withFetchWord 32 w.toNat = s.placeCode (.host w) := by
  have code : codeOfBits 32 w.toNat = some (.host w) := by
    rw [codeOfBits, if_neg (by decide), if_pos w.isLt, BitVec.ofNat_toNat, BitVec.setWidth_eq]
  rw [State.withFetchWord, State.placeBits, code]

theorem withFetchWord_event (s : State) (lines : EvLines) :
    s.withFetchWord 8 lines.toNat = s.placeCode (.event lines) := by
  have code : codeOfBits 8 lines.toNat = some (.event lines) := by
    rw [codeOfBits, if_pos le_rfl, if_pos lines.isLt, BitVec.ofNat_toNat, BitVec.setWidth_eq]
  rw [State.withFetchWord, State.placeBits, code]

/-- Beside a placed command no event is served: a standing XFER_DONE is late. -/
theorem placeCode_host_due (s : State) (w : Cmd) : (s.placeCode (.host w)).due = 0 := by
  refine (Requests.vector_eq_zero _ _).mpr ⟨rfl, ?_⟩
  show (s.xferDone && !s.shiftBusy && !(s.handlerLate || s.xferDone)) = false
  cases s.xferDone <;> simp

/-- A placed event vector is what the next step finds to serve. -/
theorem placeCode_event_due (s : State) (lines : EvLines) : (s.placeCode (.event lines)).due = lines := by
  have level : (s.placeCode (.event lines)).completionDue = lines.getLsbD 2 := by
    show ((s.xferDone || lines.getLsbD 2) && !(s.shiftBusy && !lines.getLsbD 2) &&
      !((s.handlerLate || s.xferDone) && !lines.getLsbD 2)) = lines.getLsbD 2
    cases lines.getLsbD 2 <;> cases s.xferDone <;> simp
  rw [State.due, level]
  exact Requests.vector_ofLines lines

/-- After the completion handler no completion is due. -/
theorem completeTransfer_due (s : State) : (completeTransfer s).due = s.ev.vector false := by
  rw [completeTransfer_eq]
  rfl

end Sys2Proof.Machine
end

section
namespace Sys2Proof.Machine

/-- Settles O5, by evaluation. -/
theorem sampleWordsDecode : Obligations.SampleWordsDecode := by
  unfold Obligations.SampleWordsDecode
  decide

/-- Settles O6: consuming the request is the bookkeeping of an event's step. -/
theorem stepRunsTheEvent : Obligations.StepRunsTheEvent := fun _ _ served => step_event served

/-- Settles O7, by the Host's turn in Ready. -/
theorem stepRunsTheCommand : Obligations.StepRunsTheCommand := fun _ _ _ _ _ => step_command

/-- Settles O8: a placed word is the first at the port in a Host's turn in Ready, and a placed vector is what is due. -/
theorem placedWordRunsNext : Obligations.PlacedWordRunsNext := by
  refine ⟨fun s w i decodes => ?_, fun s lines i decodes => ?_⟩
  · rw [withFetchWord_host]
    exact step_command (placeCode_host_due s w) rfl rfl rfl decodes
  · rw [withFetchWord_event]
    exact step_event ((placeCode_event_due s lines).symm ▸ decodes)

/-- Settles O9: the order of the lines is the decoder's; and XFER_DONE, served first, ends the transfer and leaves the
SCAN_TICK as the one event that is due. -/
theorem completionServedBeforeTick : Obligations.CompletionServedBeforeTick := by
  refine ⟨fun lines => ⟨fun up2 => ?_, fun down2 up1 => ?_, fun down2 down1 up3 => ?_, ?_, ?_⟩, fun s both => ?_⟩
  · rw [decode, decodeEvent, up2]
    rfl
  · rw [decode, decodeEvent, down2, up1]
    rfl
  · rw [decode, decodeEvent, down2, down1, up3]
    rfl
  · rintro rfl
    decide
  · rintro rfl i decodes
    cases decodes
  · have served : decode (.event s.due) = .ok .xferDone := by
      rw [both]
      decide
    have due : s.completionDue = true := by simpa using decode_due_cases served
    obtain ⟨⟨signalled, drained⟩, -⟩ := by simpa [State.completionDue] using due
    have alone : (completeTransfer s).due = 0b0010 := by
      have level : s.ev.vector true = 0b0110 := by rw [← due]; exact both
      rw [completeTransfer_due]
      revert level
      obtain ⟨sched, scan, ret⟩ := s.ev
      revert sched scan ret
      decide
    have next : decode (.event (completeTransfer s).due) = .ok .scanTick := by
      rw [alone]
      decide
    refine ⟨completeTransfer s, ?_, ?_, alone, ?_⟩
    · rw [step_event served]
      exact execXferDone_of_drained signalled drained
    · rw [completeTransfer_eq]
    · rw [step_event next, consumeLine_scanTick_of_due alone]

end Sys2Proof.Machine
end

section
/-! The scheduler's events read and write the scheduler's fields alone, and the scan driver's events none of them
(R36). -/

namespace Sys2Proof.Machine

variable {s t u : State}

/-- The state with the scheduler's fields of another. -/
def State.withSchedOf (s t : State) : State :=
  { s with tick := t.tick, schedState := t.schedState, cblist := t.cblist }

theorem exists_exec_sched_next {a : Instr} (event : a = .schedTick ∨ a = .cbRet) (s : State) :
    ∃ t, exec a s = .next t := by
  rcases event with rfl | rfl <;> exact ⟨_, rfl⟩

/-- A scheduler's event does the same to two states with the same scheduler's fields. -/
theorem exec_sched_of_eq {a : Instr} (event : a = .schedTick ∨ a = .cbRet) (e : exec a s = .next t)
    (same : u = u.withSchedOf s) : exec a u = .next (u.withSchedOf t) := by
  have tick : u.tick = s.tick := (congrArg State.tick same).trans rfl
  have sched : u.schedState = s.schedState := (congrArg State.schedState same).trans rfl
  have list : u.cblist = s.cblist := (congrArg State.cblist same).trans rfl
  rcases event with rfl | rfl <;> cases e
  · rw [exec, execSchedTick, sched]
    split
    · rw [State.withSchedOf, tick, ← list]
    · exact congrArg _ same
    · exact congrArg _ same
  · rw [exec, execCbRet, sched]
    split
    · exact congrArg _ same
    · exact congrArg _ same
    · rw [State.withSchedOf, list, ← tick]

/-- A scan event neither reads nor writes the scheduler's fields. -/
theorem exec_scan_withSchedOf {b : Instr} (event : b = .scanTick ∨ b = .xferDone) (s t : State) :
    exec b (s.withSchedOf t) = andThen (exec b s) fun u => .next (u.withSchedOf t) := by
  rcases event with rfl | rfl
  · rcases execScanTick_cases s with ⟨busy, e⟩ | ⟨free, last, e⟩ | ⟨free, within, e⟩ | ⟨free, above, e⟩ <;>
      rw [exec, exec, e]
    · exact execScanTick_of_busy busy
    · exact execScanTick_of_eq free last
    · exact execScanTick_of_lt free within
    · rcases execScanTick_cases (s.withSchedOf t) with ⟨busy, -⟩ | ⟨-, last, -⟩ | ⟨-, within, -⟩ | ⟨-, -, e⟩
      · exact absurd (busy.symm.trans free) (by simp)
      · exact absurd last above.ne'
      · exact absurd within above.not_gt
      · exact e
  · by_cases ready : s.xferDone = true ∧ s.shiftBusy = false
    · obtain ⟨signalled, drained⟩ := ready
      rw [exec, exec, execXferDone_of_drained signalled drained]
      refine (execXferDone_of_drained (s := s.withSchedOf t) signalled drained).trans ?_
      rw [completeTransfer_eq, completeTransfer_eq]
      rfl
    · have waiting : s.xferDone = false ∨ s.shiftBusy = true := by
        simpa [Decidable.imp_iff_not_or] using ready
      rw [exec, exec, execXferDone_of_waiting waiting]
      exact execXferDone_of_waiting waiting

theorem exec_scan_keeps_sched {b : Instr} (event : b = .scanTick ∨ b = .xferDone) (e : exec b s = .next u) :
    u = u.withSchedOf s := by
  rcases event with rfl | rfl
  · rw [exec_scanTick_frame e]
    rfl
  · rw [exec_xferDone_frame e]
    rfl

theorem withSchedOf_of_sched {a : Instr} (event : a = .schedTick ∨ a = .cbRet) (e : exec a s = .next t) :
    t = s.withSchedOf t :=
  (exec_sched_frame event e).1

end Sys2Proof.Machine
end

section
namespace Sys2Proof.Machine

/-- Settles O54: a scheduler's event changes the scheduler's fields as those fields say, a scan event reads and writes
none of them. -/
theorem schedulerAndScanCommute : Obligations.SchedulerAndScanCommute := by
  intro a b s sched scan
  obtain ⟨t, e⟩ := exists_exec_sched_next sched s
  calc
    andThen (exec a s) (exec b) = exec b t := by rw [e, andThen]
    _ = exec b (s.withSchedOf t) := congrArg (exec b) (withSchedOf_of_sched sched e)
    _ = andThen (exec b s) fun u => .next (u.withSchedOf t) := exec_scan_withSchedOf scan s t
    _ = andThen (exec b s) (exec a) := by
      cases h : exec b s with
      | next u => exact (exec_sched_of_eq sched e (exec_scan_keeps_sched scan h)).symm
      | fault r => rfl
      | refused r => rfl

end Sys2Proof.Machine
end
